-- ==== Sys2Proof/Word.lean ====
section
/-! DEFINITION. The Word, the one data type of the machine (spec/00_scope.md R10). -/

namespace Sys2Proof

/-- A Word: an unsigned 16-bit value (R10). It is the width of a register, a memory cell, the program
counter, an address and an instruction (R7, WORD_BITS). -/
abbrev Word := BitVec 16

end Sys2Proof
end

