-- ==== Sys2Proof/Config.lean ====
section
/-! DEFINITION. What is fixed for a machine: the fixed parameters of spec/00_scope.md R7, the parameters
R8 leaves open, and the one free value of the model. -/

namespace Sys2Proof

/-- MEM_WORDS: the memory has 32768 cells, at addresses 0x0000 to 0x7FFF (R7, R42). -/
def memWords : Nat := 0x8000

/-- The parameters the spec leaves OPEN and takes as arguments of a model (R8; D4, D5). They are plain
data and a state carries them (log 4), so that a claim about every state is a claim about every value. -/
structure Config where
  /-- CLS_DEPTH: the capacity of the call-linkage stack, in entries (R8, R88; D4). -/
  clsDepth : Nat
  /-- CLS_REGION: the addresses reserved for the call-linkage stack, possibly none (R8, R89; D5).
  A set, written as its addresses in rising order. -/
  clsRegion : List Word
  deriving DecidableEq, Repr

/-- The parameters `State.reset` carries: depth 4 and an empty region, the convention of
spec/95_test_vectors.md. DESIGN CHOICE, unsafe (log 4): the spec leaves both open. -/
def Config.initial : Config := { clsDepth := 4, clsRegion := [] }

/-- FAULT_IR after a fetch fault, which the spec leaves unspecified (R113; U19: any value). A free value:
it has no body, so no proof can know it; the n-th fetch fault takes `freeFaultIr n` (log 6). -/
opaque Config.freeFaultIr : Nat → Word

end Sys2Proof
end

