-- ==== Sys2Proof/Syntax.lean ====
section
/-! DEFINITION. The instructions: one constructor per row of spec/opcode_table.json
(spec/30_encoding.md R61, R66). -/

namespace Sys2Proof

/-- A 3-bit register field: value i selects general register Ri, all eight are valid (R64). -/
abbrev RegId := BitVec 3

/-- R7, the link register (R23). -/
def linkReg : RegId := 7#3

/-- One instruction. Operands are the fields of the word, each as wide as the encoding makes it. The bits
the spec says no handler reads (`ign…`, and TRAP's vector; R67) are kept as fields, because FAULT_IR
records the whole instruction word (R113; log 8). No meaning reads them. -/
inductive Instr where
  /-- ADD, register form: `0001 ddd sss 0 xx ttt` (R85). -/
  | addReg (dr sr1 : RegId) (ign : BitVec 2) (sr2 : RegId)
  /-- ADD, immediate form: `0001 ddd sss 1 iiiii` (R85). -/
  | addImm (dr sr1 : RegId) (imm5 : BitVec 5)
  /-- AND, register form: `0101 ddd sss 0 xx ttt` (R86). -/
  | andReg (dr sr1 : RegId) (ign : BitVec 2) (sr2 : RegId)
  /-- AND, immediate form: `0101 ddd sss 1 iiiii` (R86). -/
  | andImm (dr sr1 : RegId) (imm5 : BitVec 5)
  /-- BR: `0000 n z p iiiiiiiii` (R97). -/
  | br (n z p : Bool) (off9 : BitVec 9)
  /-- JMP, RET when BaseR = 7: `1100 xxx sss xxxxxx` (R99). -/
  | jmp (ignHi : BitVec 3) (base : RegId) (ignLo : BitVec 6)
  /-- JSR: `0100 1 iiiiiiiiiii` (R100). -/
  | jsr (off11 : BitVec 11)
  /-- JSRR: `0100 0 xx sss xxxxxx` (R101). -/
  | jsrr (ignHi : BitVec 2) (base : RegId) (ignLo : BitVec 6)
  /-- LD: `0010 ddd iiiiiiiii` (R105). -/
  | ld (dr : RegId) (off9 : BitVec 9)
  /-- LDI: `1010 ddd iiiiiiiii` (R106). -/
  | ldi (dr : RegId) (off9 : BitVec 9)
  /-- LDR: `0110 ddd sss iiiiii` (R107). -/
  | ldr (dr base : RegId) (off6 : BitVec 6)
  /-- LEA: `1110 ddd iiiiiiiii` (R108). -/
  | lea (dr : RegId) (off9 : BitVec 9)
  /-- NOT: `1001 ddd sss xxxxxx` (R87). -/
  | notReg (dr sr : RegId) (ign : BitVec 6)
  /-- ST: `0011 sss iiiiiiiii` (R109). -/
  | st (sr : RegId) (off9 : BitVec 9)
  /-- STI: `1011 sss iiiiiiiii` (R110). -/
  | sti (sr : RegId) (off9 : BitVec 9)
  /-- STR: `0111 sss bbb iiiiii` (R111). -/
  | str (sr base : RegId) (off6 : BitVec 6)
  /-- TRAP: `1111 xxxx vvvvvvvv`; the vector is decoded and ignored (R102). -/
  | trap (ign : BitVec 4) (vect8 : BitVec 8)
  /-- RTI, opcode 1000, no handler: `1000 xxxxxxxxxxxx` (R81). -/
  | rti (ign : BitVec 12)
  /-- The reserved opcode 1101, no handler: `1101 xxxxxxxxxxxx` (R82). -/
  | res (ign : BitVec 12)
  deriving DecidableEq, Repr

end Sys2Proof
end

