-- ==== Sys2Proof/WellFormed.lean ====
section
/-! DEFINITION. Well-formedness: of an instruction, where every value of the operand types is well formed,
and of the open parameters, which have laws of their own (spec/00_scope.md R8). -/

namespace Sys2Proof

/-- A well-formed instruction. The spec has no illegal encoding and no invalid field value (R64, R68), and
the operand types are exactly as wide as their fields, so there is nothing to check and no ill-formed
instruction can be written. The predicate is kept so that statements can name it. -/
def Instr.wf : Instr → Bool
  | .addReg .. | .addImm .. | .andReg .. | .andImm .. | .br .. | .jmp .. | .jsr .. | .jsrr ..
  | .ld .. | .ldi .. | .ldr .. | .lea .. | .notReg .. | .st .. | .sti .. | .str ..
  | .trap .. | .rti .. | .res .. => true

/-- CLS_DEPTH is at least 1 (R8, R88). -/
abbrev Config.depthPositive (c : Config) : Prop := 1 ≤ c.clsDepth

/-- CLS_REGION lies inside 0x0000–0x7FFF (R8, R89). -/
abbrev Config.regionInMemory (c : Config) : Prop :=
  ∀ a ∈ c.clsRegion.map BitVec.toNat, a < memWords

/-- CLS_REGION is written as a set: its addresses in rising order, none twice (log 10). -/
abbrev Config.regionRising (c : Config) : Prop := c.clsRegion.Pairwise (·.toNat < ·.toNat)

/-- A region that is not empty has room for the whole stack: CLS_DEPTH ≤ |CLS_REGION| (R89). -/
abbrev Config.depthFitsRegion (c : Config) : Prop :=
  c.clsRegion = [] ∨ c.clsDepth ≤ c.clsRegion.length

/-- The laws of the open parameters (R8, R89). -/
abbrev Config.wf (c : Config) : Prop :=
  c.depthPositive ∧ c.regionInMemory ∧ c.regionRising ∧ c.depthFitsRegion

end Sys2Proof
end

