-- ==== Sys2Proof/Decode.lean ====
section
/-! DEFINITION. The decoder, total on every word, and the encoder
(spec/30_encoding.md R60–R69; spec/opcode_table.json). Field positions as the tables of R61 give them;
some of those the spec takes from general knowledge (GK1, GK2; log 9). -/

namespace Sys2Proof

/-- The `len` bits of a word from bit `lo` up: `v[lo+len-1 : lo]` (R9). -/
def fieldOf (w : Word) (lo len : Nat) : BitVec len := w.extractLsb' lo len

/-- One bit of a word: `v[i]` (R9). -/
def bitOf (w : Word) (i : Nat) : Bool := w.getLsbD i

/-- Opcode 0001: IR[5] selects the register or the immediate form of ADD (R66, R85). -/
def decodeAdd (w : Word) : Instr :=
  if bitOf w 5 then .addImm (fieldOf w 9 3) (fieldOf w 6 3) (fieldOf w 0 5)
  else .addReg (fieldOf w 9 3) (fieldOf w 6 3) (fieldOf w 3 2) (fieldOf w 0 3)

/-- Opcode 0101: IR[5] selects the register or the immediate form of AND (R66, R86). -/
def decodeAnd (w : Word) : Instr :=
  if bitOf w 5 then .andImm (fieldOf w 9 3) (fieldOf w 6 3) (fieldOf w 0 5)
  else .andReg (fieldOf w 9 3) (fieldOf w 6 3) (fieldOf w 3 2) (fieldOf w 0 3)

/-- Opcode 0100: IR[11] = 1 is JSR, IR[11] = 0 is JSRR (R66; polarity GK2). -/
def decodeCall (w : Word) : Instr :=
  if bitOf w 11 then .jsr (fieldOf w 0 11)
  else .jsrr (fieldOf w 9 2) (fieldOf w 6 3) (fieldOf w 0 6)

/-- The decoder: an exhaustive match over the 16 values of IR[15:12] (R60, R66, R77). Every word decodes to
exactly one row, so there is nothing to reject (R68). -/
def decodeWord (w : Word) : Instr :=
  match bitOf w 15, bitOf w 14, bitOf w 13, bitOf w 12 with
  | false, false, false, false => .br (bitOf w 11) (bitOf w 10) (bitOf w 9) (fieldOf w 0 9)
  | false, false, false, true  => decodeAdd w
  | false, false, true,  false => .ld (fieldOf w 9 3) (fieldOf w 0 9)
  | false, false, true,  true  => .st (fieldOf w 9 3) (fieldOf w 0 9)
  | false, true,  false, false => decodeCall w
  | false, true,  false, true  => decodeAnd w
  | false, true,  true,  false => .ldr (fieldOf w 9 3) (fieldOf w 6 3) (fieldOf w 0 6)
  | false, true,  true,  true  => .str (fieldOf w 9 3) (fieldOf w 6 3) (fieldOf w 0 6)
  | true,  false, false, false => .rti (fieldOf w 0 12)
  | true,  false, false, true  => .notReg (fieldOf w 9 3) (fieldOf w 6 3) (fieldOf w 0 6)
  | true,  false, true,  false => .ldi (fieldOf w 9 3) (fieldOf w 0 9)
  | true,  false, true,  true  => .sti (fieldOf w 9 3) (fieldOf w 0 9)
  | true,  true,  false, false => .jmp (fieldOf w 9 3) (fieldOf w 6 3) (fieldOf w 0 6)
  | true,  true,  false, true  => .res (fieldOf w 0 12)
  | true,  true,  true,  false => .lea (fieldOf w 9 3) (fieldOf w 0 9)
  | true,  true,  true,  true  => .trap (fieldOf w 8 4) (fieldOf w 0 8)

/-- Why a list of words gives no instruction. The words themselves never cause one (R68). -/
inductive DecodeRefusal where
  /-- There is no word to decode: an instruction is one whole Word (R60). -/
  | noWord
  deriving DecidableEq, Repr

/-- Decode the first instruction of a list of words; every instruction is one word long (R60, R69). -/
def decode : List Word → Except DecodeRefusal (Instr × List Word)
  | [] => .error .noWord
  | w :: rest => .ok (decodeWord w, rest)

/-- The word of an instruction, from the bit strings of R61. It keeps the ignored bits. -/
def encode : Instr → Word
  | .addReg dr sr1 ign sr2  => 0b0001#4 ++ dr ++ sr1 ++ 0#1 ++ ign ++ sr2
  | .addImm dr sr1 imm5     => 0b0001#4 ++ dr ++ sr1 ++ 1#1 ++ imm5
  | .andReg dr sr1 ign sr2  => 0b0101#4 ++ dr ++ sr1 ++ 0#1 ++ ign ++ sr2
  | .andImm dr sr1 imm5     => 0b0101#4 ++ dr ++ sr1 ++ 1#1 ++ imm5
  | .br n z p off9          => 0b0000#4 ++ BitVec.ofBool n ++ BitVec.ofBool z ++ BitVec.ofBool p ++ off9
  | .jmp ignHi base ignLo   => 0b1100#4 ++ ignHi ++ base ++ ignLo
  | .jsr off11              => 0b0100#4 ++ 1#1 ++ off11
  | .jsrr ignHi base ignLo  => 0b0100#4 ++ 0#1 ++ ignHi ++ base ++ ignLo
  | .ld dr off9             => 0b0010#4 ++ dr ++ off9
  | .ldi dr off9            => 0b1010#4 ++ dr ++ off9
  | .ldr dr base off6       => 0b0110#4 ++ dr ++ base ++ off6
  | .lea dr off9            => 0b1110#4 ++ dr ++ off9
  | .notReg dr sr ign       => 0b1001#4 ++ dr ++ sr ++ ign
  | .st sr off9             => 0b0011#4 ++ sr ++ off9
  | .sti sr off9            => 0b1011#4 ++ sr ++ off9
  | .str sr base off6       => 0b0111#4 ++ sr ++ base ++ off6
  | .trap ign vect8         => 0b1111#4 ++ ign ++ vect8
  | .rti ign                => 0b1000#4 ++ ign
  | .res ign                => 0b1101#4 ++ ign

/-- What the decoder reads from an instruction whose bits are `w`, numbered as the opcode table numbers them.
Every row of the table has one 16-bit word (R60); a wider word is no instruction of this machine. -/
def decodeTableWord (nbits w : Nat) : Option Instr :=
  if nbits ≤ 16 then
    match decode [BitVec.ofNat 16 (w % 2 ^ nbits)] with
    | .ok (i, _) => some i
    | .error _ => none
  else none

end Sys2Proof
end

