-- ==== Sys2Proof/Machine/State.lean ====
section
/-! DEFINITION. The state of the machine (spec/10_state.md R20), its reset (spec/70_reset_and_hazards.md R131),
the fault causes, and the reasons a step could stop. -/

namespace Sys2Proof.Machine

/-- One memory cell: an address and the Word it holds. The machine has no bytes (spec/20_memory.md R48), so the
cell is a Word and not a byte (log 1). -/
abbrev Cell := Nat × Word

/-- The word memory (R42), as its cells in one canonical form (`Memory.wf`). -/
abbrev Memory := List Cell

/-- What a cell that is not listed reads as. The spec leaves INIT_MEM open (R40; D10).
DESIGN CHOICE, unsafe (log 2): 0x0000. -/
def unlistedWord : Word := 0#16

/-- The canonical form of a memory: addresses strictly rising, all inside the memory (R42), and no cell listed
that holds what an unlisted cell reads as. -/
abbrev Memory.wf (m : Memory) : Prop :=
  (m.map Prod.fst).Pairwise (· < ·) ∧ ∀ c ∈ m, c.1 < memWords ∧ c.2 ≠ unlistedWord

/-- The state of the block (R20: "exactly the following"), the open parameters it runs under (R8; log 4), and the
model's own counter `freeCount`. -/
structure State where
  /-- CLS_DEPTH and CLS_REGION, fixed for a run (R8; log 4). -/
  params : Config
  /-- The program counter (R25). -/
  pc : Word
  /-- Condition flag N (R27). -/
  n : Bool
  /-- Condition flag Z (R27). -/
  z : Bool
  /-- Condition flag P (R27). -/
  p : Bool
  /-- R0 to R7 (R22). -/
  regs : Vector Word 8
  /-- The word memory (R42). -/
  mem : Memory
  /-- CLS.entries, bottom first; CLS.depth is its length (R35). -/
  cls : List Word
  /-- CYCLES (R33). -/
  cycles : Nat
  /-- FAULTED (R37). -/
  faulted : Bool
  /-- FAULT_CAUSE, a 3-bit code (R37, R113). -/
  faultCause : BitVec 3
  /-- FAULT_ADDR (R37). -/
  faultAddr : Word
  /-- FAULT_IR (R37). -/
  faultIr : Word
  /-- The MODEL's own, not the spec's: which free value the next fetch fault takes (log 6). -/
  freeCount : Nat
  deriving DecidableEq, Repr

/-- The causes of a fault (spec/60_exceptions.md R113). "No other cause exists." -/
inductive Cause where
  /-- 1 FETCH_RANGE: the fetch address is 0x8000 or above. -/
  | fetchRange
  /-- 2 LOAD_RANGE: a data or pointer read at 0x8000 or above. -/
  | loadRange
  /-- 3 STORE_RANGE: a write at 0x8000 or above. -/
  | storeRange
  /-- 4 CLS_OVERFLOW: a push on a full call-linkage stack. -/
  | clsOverflow
  /-- 5 CLS_REGION_ACCESS: any access to an address in CLS_REGION. -/
  | clsRegionAccess
  deriving DecidableEq, Repr

/-- The kinds of memory access (R46). -/
inductive AccessKind where
  | fetch
  | load
  | store
  deriving DecidableEq, Repr

/-- `raise Fault(cause, addr)`: what a failing check hands to the fault entry (R14). -/
structure Raise where
  cause : Cause
  addr : Word
  deriving DecidableEq, Repr

/-- The ways a step of this model could stop without a next state: none. The spec's own faults (R113) are entered,
as R114 describes: they end in a next state with FAULTED = 1, in which every later step changes nothing. No word
of the ISA is illegal (R68). So no constructor, and nothing raises one (log 7). Safe: the model stops nowhere the
hardware goes on. -/
inductive Fault where
  deriving DecidableEq, Repr

/-- The ways a step can be refused. -/
inductive Refusal where
  /-- Raised only by an arm of `exec` whose instruction has no meaning yet; no arm is such an arm now. Safe: the
  model stops where the hardware goes on. -/
  | notModelled (mnemonic : String)
  deriving DecidableEq, Repr

/-- The state right after reset, for given open parameters, INIT_REGS and INIT_MEM (R41, R131).
FAULT_CAUSE, FAULT_ADDR and FAULT_IR are unspecified while FAULTED = 0 (R37): 0, a DESIGN CHOICE (log 5). -/
def State.resetWith (params : Config) (initRegs : Vector Word 8) (initMem : Memory) : State where
  params := params
  pc := 0
  n := false
  z := true
  p := false
  regs := initRegs
  mem := initMem
  cls := []
  cycles := 0
  faulted := false
  faultCause := 0
  faultAddr := 0
  faultIr := 0
  freeCount := 0

/-- The state right after reset. DESIGN CHOICE, unsafe, where the spec leaves a value open: registers 0 (log 3),
memory with nothing listed (log 2), parameters `Config.initial` (log 4). -/
def State.reset : State := State.resetWith Config.initial (Vector.replicate 8 0) []

end Sys2Proof.Machine
end

