-- ==== Sys2Proof/Machine/Ops.lean ====
section
/-! DEFINITION. The named operations of the machine: registers, memory and its address check, the call-linkage stack,
instruction fetch, the fault entry and the commit of a step. Every meaning is written over these. -/

namespace Sys2Proof.Machine

/-! ### State updates, one per register or group of registers -/

/-- `pc <- t` (R12). -/
def State.setPc (s : State) (t : Word) : State := { s with pc := t }

/-- `x[r]`: a read of general register Rr (R12, R22). -/
def State.reg (s : State) (r : RegId) : Word := s.regs[r.toNat]'r.isLt

/-- `x[r] <- v` (R12, R22). No register is hardwired. -/
def State.setReg (s : State) (r : RegId) (v : Word) : State :=
  { s with regs := s.regs.set r.toNat v r.isLt }

/-- Write the three condition flags (R27). -/
def State.setFlags (s : State) (n z p : Bool) : State := { s with n := n, z := z, p := p }

/-- Replace the memory. -/
def State.setMem (s : State) (m : Memory) : State := { s with mem := m }

/-- Replace CLS.entries (R35). -/
def State.setCls (s : State) (entries : List Word) : State := { s with cls := entries }

/-- `CYCLES <- CYCLES + 1`, the commit of a step (R33, R73). -/
def State.commit (s : State) : State := { s with cycles := s.cycles + 1 }

/-- Write FAULTED and the fault record (R37). -/
def State.recordFault (s : State) (cause : BitVec 3) (addr ir : Word) : State :=
  { s with faulted := true, faultCause := cause, faultAddr := addr, faultIr := ir }

/-- Move on to the next free value (log 6). -/
def State.advanceFree (s : State) : State := { s with freeCount := s.freeCount + 1 }

/-! ### Memory: the MEM port (R59) -/

/-- `read(a)`: the Word in cell `a` (R47, R59). -/
def Memory.read : Memory → Nat → Word
  | [], _ => unlistedWord
  | (b, w) :: rest, a => if b = a then w else Memory.read rest a

/-- List cell `a` with Word `v` before `rest`, unless `v` is what an unlisted cell reads as. -/
def Memory.put (a : Nat) (v : Word) (rest : Memory) : Memory :=
  if v = unlistedWord then rest else (a, v) :: rest

/-- `write(a, v)`: cell `a` holds `v` after it, every other cell what it held (R47, R59). Keeps the canonical form. -/
def Memory.write : Memory → Nat → Word → Memory
  | [], a, v => Memory.put a v []
  | (b, w) :: rest, a, v =>
    if a < b then Memory.put a v ((b, w) :: rest)
    else if a = b then Memory.put a v rest
    else (b, w) :: Memory.write rest a v

/-- `cause_of(kind)`: the cause of an access out of range (R46). -/
def AccessKind.rangeCause : AccessKind → Cause
  | .fetch => .fetchRange
  | .load => .loadRange
  | .store => .storeRange

/-- `Check(a, kind)`: the range test, then the region test (R46, R116). -/
def checkAddress (s : State) (kind : AccessKind) (a : Word) : Except Raise Unit :=
  if memWords ≤ a.toNat then .error { cause := kind.rangeCause, addr := a }
  else if a ∈ s.params.clsRegion then .error { cause := .clsRegionAccess, addr := a }
  else .ok ()

/-- `MemRead(a, 1)` (R13, R47). -/
def memRead (s : State) (kind : AccessKind) (a : Word) : Except Raise Word :=
  match checkAddress s kind a with
  | .ok _ => .ok (s.mem.read a.toNat)
  | .error r => .error r

/-- `MemWrite(a, 1, v)` (R13, R47). -/
def memWrite (s : State) (a v : Word) : Except Raise State :=
  match checkAddress s .store a with
  | .ok _ => .ok (s.setMem (s.mem.write a.toNat v))
  | .error r => .error r

/-! ### The call-linkage stack controller (R93) -/

/-- `CLS.depth` (R35). -/
def State.clsDepth (s : State) : Nat := s.cls.length

/-- `CLS.push(v)`: raises CLS_OVERFLOW, with the word not pushed as its address, when the stack is full (R90). -/
def clsPush (s : State) (v : Word) : Except Raise State :=
  if s.clsDepth = s.params.clsDepth then .error { cause := .clsOverflow, addr := v }
  else .ok (s.setCls (s.cls ++ [v]))

/-- `empty()` and `pop()` in one: the top entry and the state without it, or nothing where the stack is empty
(R91, R93). -/
def clsPop (s : State) : Option (Word × State) :=
  match s.cls.getLast? with
  | some v => some (v, s.setCls s.cls.dropLast)
  | none => none

/-! ### Fault entry (R113, R114) -/

/-- The 3-bit code of a cause (R113). -/
def Cause.code : Cause → BitVec 3
  | .fetchRange => 1
  | .loadRange => 2
  | .storeRange => 3
  | .clsOverflow => 4
  | .clsRegionAccess => 5

/-- Fault entry: `before` is the state the step began in, so everything the step did is discarded; FAULTED is set and
the cause, the address and the instruction word recorded (R114). There is no handler, vector, saved-state area or
mode change, and no return: only reset clears FAULTED (R114, R119). -/
def takeFault (r : Raise) (ir : Word) (before : State) : State :=
  before.recordFault r.cause.code r.addr ir

/-- Fault entry from a failing fetch: FAULT_IR is unspecified (R113; U19), a free value (log 6). -/
def takeFetchFault (r : Raise) (before : State) : State :=
  (takeFault r (Config.freeFaultIr before.freeCount) before).advanceFree

/-! ### The parts of a step (R73) -/

/-- Fetch reads the instruction word at `pc` (R74, R75). The increment of `pc` follows in `runHandler`. -/
def fetch (s : State) : Except Raise Word := memRead s .fetch s.pc

/-- Run the handler of instruction `i` from state `s`, whose `pc` is the instruction's address: `pc` is incremented
first, so that the handler sees the incremented PC (R25, R74); then the step commits, or, if the handler raises,
the fault is entered from `s` with the instruction's own word as FAULT_IR (R73, R113, R114; log 8). -/
def runHandler (i : Instr) (handler : State → Except Raise State) (s : State) :
    Host.Outcome State Fault Refusal :=
  match handler (s.setPc (s.pc + 1#16)) with
  | .ok t => .next t.commit
  | .error r => .next (takeFault r (encode i) s)

end Sys2Proof.Machine
end

