-- ==== Sys2Proof/Machine/Flags.lean ====
section
/-! DEFINITION. The condition-code updater (spec/10_state.md R27) and the branch condition (spec/43_control.md R97). -/

namespace Sys2Proof.Machine

/-- `SetCC(v)` (R27). -/
def setCC (v : Word) (s : State) : State :=
  if v = 0#16 then s.setFlags false true false
  else if v.getLsbD 15 = false then s.setFlags false false true
  else s.setFlags true false false

/-- Write a result to DR and run `SetCC` on it: the end of every CC-writing instruction (R28, R78). -/
def writeResult (dr : RegId) (v : Word) (s : State) : State := setCC v (s.setReg dr v)

/-- `(n & N) | (z & Z) | (p & P)`: whether a BR with these condition bits is taken (R97). -/
def branchTaken (n z p : Bool) (s : State) : Bool := (n && s.n) || (z && s.z) || (p && s.p)

end Sys2Proof.Machine
end

