-- ==== Sys2Proof/Machine/Operands.lean ====
section
/-! DEFINITION. Operand forms: sign extension (spec/00_scope.md R11) and the addressing modes
(spec/44_load_store.md R103). -/

namespace Sys2Proof.Machine

/-- Sign extension by the source's recipe: test the field's sign bit; if it is set, OR in all higher bits up to 16
(R11). Used only at the widths 5, 6, 9 and 11 (R11; U2). -/
def extendField {width : Nat} (v : BitVec width) : Word :=
  if v.msb then v.setWidth 16 ||| (0xFFFF#16 <<< width) else v.setWidth 16

/-- `sext_5`, of imm5 (R11, R63). -/
def sext5 (v : BitVec 5) : Word := extendField v

/-- `sext_6`, of offset6 (R11, R63). -/
def sext6 (v : BitVec 6) : Word := extendField v

/-- `sext_9`, of PCoffset9 (R11, R63). -/
def sext9 (v : BitVec 9) : Word := extendField v

/-- `sext_11`, of PCoffset11 (R11, R63). -/
def sext11 (v : BitVec 11) : Word := extendField v

/-- PC-relative: `(pc + sext_9(IR[8:0])) & 0xFFFF`; `pc` is the incremented PC (R103, R25). -/
def pcRelative (s : State) (off9 : BitVec 9) : Word := s.pc + sext9 off9

/-- PC-relative with the 11-bit offset of JSR (R100). -/
def pcRelative11 (s : State) (off11 : BitVec 11) : Word := s.pc + sext11 off11

/-- Base + offset: `(x[BaseR] + sext_6(IR[5:0])) & 0xFFFF` (R103). -/
def baseOffset (s : State) (base : RegId) (off6 : BitVec 6) : Word := s.reg base + sext6 off6

/-- Indirect: the word at the PC-relative address, read as a load (R103; the pointer read of LDI and STI). -/
def indirect (s : State) (off9 : BitVec 9) : Except Raise Word := memRead s .load (pcRelative s off9)

end Sys2Proof.Machine
end

