-- ==== Sys2Proof/Machine/Control.lean ====
section
/-! DEFINITION. The control transfers BR, JMP, JSR, JSRR, TRAP (spec/43_control.md). A transfer never faults by its
target: the next fetch does (R96). None writes the flags. -/

namespace Sys2Proof.Machine

/-- BR: if taken, `pc` moves by the offset (R97). -/
def execBr (n z p : Bool) (off9 : BitVec 9) (s : State) : Host.Outcome State Fault Refusal :=
  runHandler (.br n z p off9)
    (fun t => .ok (if branchTaken n z p t then t.setPc (pcRelative t off9) else t)) s

/-- `if b == 7 and CLS.depth > 0: x[7] <- CLS.pop()` (R99; R91). -/
def popIntoLink (base : RegId) (s : State) : State :=
  if base = linkReg then
    match clsPop s with
    | some (v, s') => s'.setReg linkReg v
    | none => s
  else s

/-- JMP, RET when BaseR = 7: the pop into R7 comes first, and the target is read after it (R99). -/
def execJmp (ignHi : BitVec 3) (base : RegId) (ignLo : BitVec 6) (s : State) :
    Host.Outcome State Fault Refusal :=
  runHandler (.jmp ignHi base ignLo)
    (fun t => let u := popIntoLink base t; .ok (u.setPc (u.reg base))) s

/-- What JSR and JSRR share: the return address, the incremented PC, goes to R7 and onto the stack; the push may
raise CLS_OVERFLOW (R100, R101). -/
def linkCall (s : State) : Except Raise State := clsPush (s.setReg linkReg s.pc) s.pc

/-- JSR: call a PC-relative target (R100). -/
def execJsr (off11 : BitVec 11) (s : State) : Host.Outcome State Fault Refusal :=
  runHandler (.jsr off11)
    (fun t => match linkCall t with
      | .ok u => .ok (u.setPc (pcRelative11 u off11))
      | .error r => .error r) s

/-- JSRR: call the address in BaseR, read after R7 is written, so `JSRR R7` goes on to the next instruction
(R101; D17). -/
def execJsrr (ignHi : BitVec 2) (base : RegId) (ignLo : BitVec 6) (s : State) :
    Host.Outcome State Fault Refusal :=
  runHandler (.jsrr ignHi base ignLo)
    (fun t => match linkCall t with
      | .ok u => .ok (u.setPc (u.reg base))
      | .error r => .error r) s

/-- TRAP: sets `pc` to the halt sentinel 0x0000 and does nothing else; every vector is the same (R102, R118). -/
def execTrap (ign : BitVec 4) (vect8 : BitVec 8) (s : State) : Host.Outcome State Fault Refusal :=
  runHandler (.trap ign vect8) (fun t => .ok (t.setPc 0#16)) s

end Sys2Proof.Machine
end

