-- ==== Sys2Proof/Machine/LoadStore.lean ====
section
/-! DEFINITION. The loads LD, LDI, LDR, the address instruction LEA and the stores ST, STI, STR
(spec/44_load_store.md). Addresses are computed and sources read before any register is written (R104). -/

namespace Sys2Proof.Machine

/-- Read the word at `a` into DR and set the flags from it: the end of LD, LDI and LDR (R105–R107). -/
def loadInto (dr : RegId) (a : Word) (s : State) : Except Raise State :=
  match memRead s .load a with
  | .ok v => .ok (writeResult dr v s)
  | .error r => .error r

/-- LD: PC-relative load (R105). -/
def execLd (dr : RegId) (off9 : BitVec 9) (s : State) : Host.Outcome State Fault Refusal :=
  runHandler (.ld dr off9) (fun t => loadInto dr (pcRelative t off9) t) s

/-- LDI: the pointer is read first, then the data (R106). -/
def execLdi (dr : RegId) (off9 : BitVec 9) (s : State) : Host.Outcome State Fault Refusal :=
  runHandler (.ldi dr off9)
    (fun t => match indirect t off9 with
      | .ok a => loadInto dr a t
      | .error r => .error r) s

/-- LDR: base + offset load (R107). -/
def execLdr (dr base : RegId) (off6 : BitVec 6) (s : State) : Host.Outcome State Fault Refusal :=
  runHandler (.ldr dr base off6) (fun t => loadInto dr (baseOffset t base off6) t) s

/-- LEA: stores the address itself; no memory access, no flags (R108). -/
def execLea (dr : RegId) (off9 : BitVec 9) (s : State) : Host.Outcome State Fault Refusal :=
  runHandler (.lea dr off9) (fun t => .ok (t.setReg dr (pcRelative t off9))) s

/-- ST: PC-relative store (R109). -/
def execSt (sr : RegId) (off9 : BitVec 9) (s : State) : Host.Outcome State Fault Refusal :=
  runHandler (.st sr off9) (fun t => memWrite t (pcRelative t off9) (t.reg sr)) s

/-- STI: the pointer is read as a load, then the word is written through it (R110). -/
def execSti (sr : RegId) (off9 : BitVec 9) (s : State) : Host.Outcome State Fault Refusal :=
  runHandler (.sti sr off9)
    (fun t => match indirect t off9 with
      | .ok a => memWrite t a (t.reg sr)
      | .error r => .error r) s

/-- STR: base + offset store (R111). -/
def execStr (sr base : RegId) (off6 : BitVec 6) (s : State) : Host.Outcome State Fault Refusal :=
  runHandler (.str sr base off6) (fun t => memWrite t (baseOffset t base off6) (t.reg sr)) s

end Sys2Proof.Machine
end

