-- ==== Sys2Proof/Machine/NoHandler.lean ====
section
/-! DEFINITION. The two opcodes with no handler, RTI (1000) and the reserved 1101: no-ops that consume a cycle
(spec/40_dispatch.md R81, R82). -/

namespace Sys2Proof.Machine

/-- RTI: nothing beyond fetch; it returns from nothing and raises nothing (R81, R119). -/
def execRti (ign : BitVec 12) (s : State) : Host.Outcome State Fault Refusal :=
  runHandler (.rti ign) (fun t => .ok t) s

/-- Opcode 1101: nothing beyond fetch (R82). -/
def execRes (ign : BitVec 12) (s : State) : Host.Outcome State Fault Refusal :=
  runHandler (.res ign) (fun t => .ok t) s

end Sys2Proof.Machine
end

