-- ==== Sys2Proof/Machine/Operate.lean ====
section
/-! DEFINITION. The operate instructions ADD, AND, NOT (spec/41_operate.md). Sources are read before DR is written
(R84), and no operate instruction faults. -/

namespace Sys2Proof.Machine

/-- ADD DR, SR1, SR2 (R85); addition is modulo 2^16 (R83). -/
def execAddReg (dr sr1 : RegId) (ign : BitVec 2) (sr2 : RegId) (s : State) :
    Host.Outcome State Fault Refusal :=
  runHandler (.addReg dr sr1 ign sr2) (fun t => .ok (writeResult dr (t.reg sr1 + t.reg sr2) t)) s

/-- ADD DR, SR1, #imm5 (R85). -/
def execAddImm (dr sr1 : RegId) (imm5 : BitVec 5) (s : State) : Host.Outcome State Fault Refusal :=
  runHandler (.addImm dr sr1 imm5) (fun t => .ok (writeResult dr (t.reg sr1 + sext5 imm5) t)) s

/-- AND DR, SR1, SR2 (R86). -/
def execAndReg (dr sr1 : RegId) (ign : BitVec 2) (sr2 : RegId) (s : State) :
    Host.Outcome State Fault Refusal :=
  runHandler (.andReg dr sr1 ign sr2) (fun t => .ok (writeResult dr (t.reg sr1 &&& t.reg sr2) t)) s

/-- AND DR, SR1, #imm5 (R86). -/
def execAndImm (dr sr1 : RegId) (imm5 : BitVec 5) (s : State) : Host.Outcome State Fault Refusal :=
  runHandler (.andImm dr sr1 imm5) (fun t => .ok (writeResult dr (t.reg sr1 &&& sext5 imm5) t)) s

/-- NOT DR, SR (R87). -/
def execNotReg (dr sr : RegId) (ign : BitVec 6) (s : State) : Host.Outcome State Fault Refusal :=
  runHandler (.notReg dr sr ign) (fun t => .ok (writeResult dr (~~~ t.reg sr) t)) s

end Sys2Proof.Machine
end

