-- ==== Sys2Proof/Machine/Dispatch.lean ====
section
/-! DEFINITION. Dispatch: one arm per instruction (spec/40_dispatch.md R77). The state given is the one the step began
in, with `pc` the instruction's address. -/

namespace Sys2Proof.Machine

def exec (i : Instr) (s : State) : Host.Outcome State Fault Refusal :=
  match i with
  | .addReg dr sr1 ign sr2 => Sys2Proof.Machine.execAddReg dr sr1 ign sr2 s
  | .addImm dr sr1 imm5 => Sys2Proof.Machine.execAddImm dr sr1 imm5 s
  | .andReg dr sr1 ign sr2 => Sys2Proof.Machine.execAndReg dr sr1 ign sr2 s
  | .andImm dr sr1 imm5 => Sys2Proof.Machine.execAndImm dr sr1 imm5 s
  | .br n z p off9 => Sys2Proof.Machine.execBr n z p off9 s
  | .jmp ignHi base ignLo => Sys2Proof.Machine.execJmp ignHi base ignLo s
  | .jsr off11 => Sys2Proof.Machine.execJsr off11 s
  | .jsrr ignHi base ignLo => Sys2Proof.Machine.execJsrr ignHi base ignLo s
  | .ld dr off9 => Sys2Proof.Machine.execLd dr off9 s
  | .ldi dr off9 => Sys2Proof.Machine.execLdi dr off9 s
  | .ldr dr base off6 => Sys2Proof.Machine.execLdr dr base off6 s
  | .lea dr off9 => Sys2Proof.Machine.execLea dr off9 s
  | .notReg dr sr ign => Sys2Proof.Machine.execNotReg dr sr ign s
  | .st sr off9 => Sys2Proof.Machine.execSt sr off9 s
  | .sti sr off9 => Sys2Proof.Machine.execSti sr off9 s
  | .str sr base off6 => Sys2Proof.Machine.execStr sr base off6 s
  | .trap ign vect8 => Sys2Proof.Machine.execTrap ign vect8 s
  | .rti ign => Sys2Proof.Machine.execRti ign s
  | .res ign => Sys2Proof.Machine.execRes ign s

end Sys2Proof.Machine
end

