-- ==== Sys2Proof/Machine/Step.lean ====
section
/-! DEFINITION. One step (spec/40_dispatch.md R73), and the placing of an instruction where the step fetches. -/

namespace Sys2Proof.Machine

/-- `Step()` (R72, R73): nothing while FAULTED; else fetch, decode and dispatch, or the fault of the fetch. -/
def step (s : State) : Host.Outcome State Fault Refusal :=
  if s.faulted then .next s
  else
    match fetch s with
    | .ok ir => exec (decodeWord ir) s
    | .error r => .next (takeFetchFault r s)

/-- `s` with the instruction of bits `w` in the cell at `pc`, where the step fetches (R74). It changes that one cell;
outside the memory there is no cell and nothing changes (R42). It stands for the host's LOAD, by which a program
comes into the memory (R132; log 14). -/
def State.withFetchWord (s : State) (nbits w : Nat) : State :=
  if s.pc.toNat < memWords then
    s.setMem (s.mem.write s.pc.toNat (BitVec.ofNat 16 (w % 2 ^ nbits)))
  else s

end Sys2Proof.Machine
end

