-- ==== Sys2Proof/Machine/Load.lean ====
section
/-! DEFINITION. The LOAD interface: program images, the refusals, and the entry point
(spec/70_reset_and_hazards.md R132, R133). -/

namespace Sys2Proof.Machine

/-- A program file as the loader finds it: none it can read, or the values of its hexadecimal tokens (R132). -/
inductive ImageFile where
  | unreadable
  | tokens (ts : List Nat)
  deriving DecidableEq, Repr

/-- Why a load is refused, which the source calls fatal (R132). A refused load starts no run. -/
inductive LoadRefusal where
  /-- "a program file is missing or unreadable". -/
  | missingFile
  /-- "a program file is empty". -/
  | emptyFile
  /-- "an image does not fit in memory". -/
  | doesNotFit
  /-- "a data token is greater than 0xFFFF" (D23). -/
  | tokenTooLarge
  deriving DecidableEq, Repr

/-- Write words to consecutive cells from address `a` (R132). -/
def Memory.writeWords : Memory → Nat → List Word → Memory
  | m, _, [] => m
  | m, a, v :: vs => Memory.writeWords (m.write a v) (a + 1) vs

/-- "origin + (number of Words) > 0x8000, which includes an origin ≥ 0x8000" (R132; log 12). -/
def fitsInMemory (origin count : Nat) : Bool := origin < memWords && origin + count ≤ memWords

/-- `if pc = 0x0000 when that image is loaded, then pc <- origin` (R133; C4, D16). -/
def entryPc (pc : Word) (origin : Nat) : Word := if pc = 0#16 then BitVec.ofNat 16 origin else pc

/-- Load one image: token 0 is the origin, token k goes to `mem[origin + k - 1]` (R132, R133). -/
def loadImage (f : ImageFile) (s : State) : Except LoadRefusal State :=
  match f with
  | .unreadable => .error .missingFile
  | .tokens [] => .error .emptyFile
  | .tokens (origin :: words) =>
    if fitsInMemory origin words.length = false then .error .doesNotFit
    else if words.any (0xFFFF < ·) then .error .tokenTooLarge
    else .ok ((s.setMem (s.mem.writeWords origin (words.map (BitVec.ofNat 16)))).setPc
        (entryPc s.pc origin))

/-- Images load one after another; a later one overwrites, and the first refusal refuses the whole load (R132). -/
def loadImages : List ImageFile → State → Except LoadRefusal State
  | [], s => .ok s
  | f :: fs, s =>
    match loadImage f s with
    | .ok t => loadImages fs t
    | .error e => .error e

/-- Reset, then load every image: the state in which the first step runs (R134, R135). -/
def launch (params : Config) (initRegs : Vector Word 8) (initMem : Memory) (images : List ImageFile) :
    Except LoadRefusal State :=
  loadImages images (State.resetWith params initRegs initMem)

end Sys2Proof.Machine
end

