-- ==== Sys2Proof/Machine/Inspect.lean ====
section
/-! DEFINITION. The inspection interface INSPECT and the halt indication (spec/60_exceptions.md R122, R124). Reading
changes nothing; the call-linkage stack is not visible. -/

namespace Sys2Proof.Machine

/-- HALTED := (pc == 0), a read-only indication and no state (R122, R21). -/
def State.halted (s : State) : Bool := s.pc == 0#16

/-- What the host reads with `rdump` (R124). The last four are the spec's addition and say nothing while FAULTED = 0. -/
structure Snapshot where
  pc : Word
  n : Bool
  z : Bool
  p : Bool
  regs : Vector Word 8
  cycles : Nat
  halted : Bool
  faulted : Bool
  faultCause : BitVec 3
  faultAddr : Word
  faultIr : Word
  deriving DecidableEq, Repr

/-- INSPECT of everything but memory (R124, R122). -/
def inspectState (s : State) : Snapshot where
  pc := s.pc
  n := s.n
  z := s.z
  p := s.p
  regs := s.regs
  cycles := s.cycles
  halted := s.halted
  faulted := s.faulted
  faultCause := s.faultCause
  faultAddr := s.faultAddr
  faultIr := s.faultIr

/-- INSPECT of `mem[lo..hi]`, both ends read, for a range inside 0x0000–0x7FFF; another range is refused, as `none`
(R124; D19; log 13). -/
def inspectMemory (lo hi : Nat) (s : State) : Option (List Word) :=
  if hi < memWords then some ((List.range' lo (hi + 1 - lo)).map s.mem.read) else none

end Sys2Proof.Machine
end

