-- ==== Sys2Proof/Machine/RunLoop.lean ====
section
/-! DEFINITION. What the host's run-loop does to the block: RUN n and GO (spec/60_exceptions.md R122, R123, R125). -/

namespace Sys2Proof.Machine

/-- The ends of a run (R123). -/
inductive RunEnd where
  /-- (a) HALTED: a normal end. -/
  | halted
  /-- (b) FAULTED = 1: an abnormal end. -/
  | faulted
  /-- (c) the budget is used up: unfinished, not ended. -/
  | unfinished
  deriving DecidableEq, Repr

/-- `run n`: step until FAULTED, HALTED or the budget is spent; the check comes before every step, the first included
(R122, R123; D12). FAULTED is looked at first: a faulted block is never a normal end (log 11). -/
def runLoop : Nat → State → Host.Outcome (RunEnd × State) Fault Refusal
  | budget, s =>
    if s.faulted then .next (.faulted, s)
    else if s.halted then .next (.halted, s)
    else
      match budget with
      | 0 => .next (.unfinished, s)
      | k + 1 =>
        match step s with
        | .next t => runLoop k t
        | .fault r => .fault r
        | .refused r => .refused r

/-- `go`, which has no budget: it ends in `t` with end `e` when some number of steps ends so (R125; U16). -/
def goEnds (s : State) (e : RunEnd) (t : State) : Prop :=
  e ≠ .unfinished ∧ ∃ budget, runLoop budget s = .next (e, t)

end Sys2Proof.Machine
end

