-- ==== Sys2Proof/Safety.lean ====
section
/-! DEFINITION. What counts as a good state and a safe run, in the terms the claims use. -/

namespace Sys2Proof.Machine

/-- "Exactly one of N, Z and P is 1" (spec/10_state.md R30). -/
abbrev State.oneHot (s : State) : Prop :=
  (s.n, s.z, s.p) = (true, false, false) ∨ (s.n, s.z, s.p) = (false, true, false) ∨
    (s.n, s.z, s.p) = (false, false, true)

/-- `CLS.depth ≤ CLS_DEPTH` (R35). -/
abbrev State.stackBounded (s : State) : Prop := s.cls.length ≤ s.params.clsDepth

/-- A recorded cause is one of the five codes: "Code 0 and codes 6–7 are never recorded" (R113). -/
abbrev State.causeKnown (s : State) : Prop :=
  s.faulted = true → 1 ≤ s.faultCause.toNat ∧ s.faultCause.toNat ≤ 5

/-- The machine invariant: lawful parameters, canonical memory, one-hot flags, a bounded stack, a known cause. -/
abbrev State.Inv (s : State) : Prop :=
  s.params.wf ∧ s.mem.wf ∧ s.oneHot ∧ s.stackBounded ∧ s.causeKnown

/-- An address a program may access: in range and outside CLS_REGION (R46). -/
abbrev State.accessible (s : State) (a : Word) : Prop :=
  a.toNat < memWords ∧ a ∉ s.params.clsRegion

/-- A safe state: the block has not faulted (R114). -/
abbrev State.safe (s : State) : Prop := s.faulted = false

/-- A run from `s` is safe for `budget` steps when it does not end in a fault (R123). -/
def safeRun (budget : Nat) (s : State) : Prop :=
  ∃ e t, runLoop budget s = .next (e, t) ∧ e ≠ .faulted ∧ t.safe

end Sys2Proof.Machine
end

