-- ==== Sys2Proof/Certificates/Slice0/Obligations.lean ====
section
/-! DEFINITION. What is claimed of the machine. Each docstring names the rule of spec/ it formalises, or the sections it
rests on. Sign extension is written here with the library's `signExtend`, and the flags by their bits, so that a claim
does not repeat the definition it is about. -/

namespace Sys2Proof.Claims

open Machine

/-! ### Words the claims are written in -/

/-- The step commits: `pc` becomes `target` and CYCLES grows by one (R33, R73). -/
def done (s : State) (target : Word) : State := { s with pc := target, cycles := s.cycles + 1 }

/-- Ri becomes `v`. -/
def withReg (s : State) (r : RegId) (v : Word) : State :=
  { s with regs := s.regs.set r.toNat v r.isLt }

/-- DR becomes `v` and N, Z, P its sign class (R27). -/
def withResult (s : State) (dr : RegId) (v : Word) : State :=
  { withReg s dr v with n := v.getLsbD 15, z := v == 0#16, p := !v.getLsbD 15 && v != 0#16 }

/-- The fault entry (R114): the state the step began in, with FAULTED set and the fault recorded. -/
def faultedWith (s : State) (code : BitVec 3) (addr ir : Word) : State :=
  { s with faulted := true, faultCause := code, faultAddr := addr, faultIr := ir }

/-- What the address check of R46 raises at `a`: `rangeCode` at 0x8000 or above, else 5 inside CLS_REGION. -/
def accessFault (s : State) (rangeCode : BitVec 3) (a : Word) : Option (BitVec 3) :=
  if 0x8000 ≤ a.toNat then some rangeCode
  else if a ∈ s.params.clsRegion then some 5 else none

/-- The PC-relative address: the incremented PC plus the signed 9-bit offset (R103, R25). -/
def pcRel (s : State) (off9 : BitVec 9) : Word := s.pc + 1#16 + off9.signExtend 16

/-- The base + offset address (R103). -/
def baseRel (s : State) (base : RegId) (off6 : BitVec 6) : Word := s.reg base + off6.signExtend 16

/-- The register a CC-writing instruction writes; none for the others (R18, R28). -/
def ccDest : Instr → Option RegId
  | .addReg dr .. | .addImm dr .. | .andReg dr .. | .andImm dr .. | .notReg dr ..
  | .ld dr .. | .ldi dr .. | .ldr dr .. => some dr
  | .br .. | .jmp .. | .jsr .. | .jsrr .. | .lea .. | .st .. | .sti .. | .str ..
  | .trap .. | .rti .. | .res .. => none

/-- The registers an instruction may write, by the table of R24. -/
def mayWrite (s : State) : Instr → List RegId
  | .addReg dr .. | .addImm dr .. | .andReg dr .. | .andImm dr .. | .notReg dr ..
  | .ld dr .. | .ldi dr .. | .ldr dr .. | .lea dr .. => [dr]
  | .jmp _ base _ => if base = 7#3 ∧ s.cls ≠ [] then [7#3] else []
  | .jsr .. | .jsrr .. => [7#3]
  | .br .. | .st .. | .sti .. | .str .. | .trap .. | .rti .. | .res .. => []

/-- The data accesses of an instruction, in order, with the address of each (R43): for LDI and STI the second address is
the word the pointer cell holds. -/
def accesses (s : State) : Instr → List (AccessKind × Word)
  | .ld _ off9 => [(.load, pcRel s off9)]
  | .ldi _ off9 => [(.load, pcRel s off9), (.load, s.mem.read (pcRel s off9).toNat)]
  | .ldr _ base off6 => [(.load, baseRel s base off6)]
  | .st _ off9 => [(.store, pcRel s off9)]
  | .sti _ off9 => [(.load, pcRel s off9), (.store, s.mem.read (pcRel s off9).toNat)]
  | .str _ base off6 => [(.store, baseRel s base off6)]
  | .addReg .. | .addImm .. | .andReg .. | .andImm .. | .br .. | .jmp .. | .jsr .. | .jsrr ..
  | .lea .. | .notReg .. | .trap .. | .rti .. | .res .. => []

/-- The address an instruction stores to, computed as its meaning computes it, on the state with `pc` incremented; none
for an instruction that stores nothing (R43). -/
def storesTo (s : State) : Instr → Option Word
  | .st _ off9 => some (pcRelative (s.setPc (s.pc + 1#16)) off9)
  | .sti _ off9 => (indirect (s.setPc (s.pc + 1#16)) off9).toOption
  | .str _ base off6 => some (baseOffset (s.setPc (s.pc + 1#16)) base off6)
  | .addReg .. | .addImm .. | .andReg .. | .andImm .. | .br .. | .jmp .. | .jsr .. | .jsrr ..
  | .ld .. | .ldi .. | .ldr .. | .lea .. | .notReg .. | .trap .. | .rti .. | .res .. => none

/-- An instruction that pushes: JSR, JSRR (R92). -/
def pushes : Instr → Bool
  | .jsr .. | .jsrr .. => true
  | .addReg .. | .addImm .. | .andReg .. | .andImm .. | .br .. | .jmp .. | .ld .. | .ldi .. | .ldr ..
  | .lea .. | .notReg .. | .st .. | .sti .. | .str .. | .trap .. | .rti .. | .res .. => false

/-- JMP with BaseR = 7 (R92). -/
def popsLink : Instr → Bool
  | .jmp _ base _ => base == 7#3
  | .addReg .. | .addImm .. | .andReg .. | .andImm .. | .br .. | .jsr .. | .jsrr .. | .ld .. | .ldi ..
  | .ldr .. | .lea .. | .notReg .. | .st .. | .sti .. | .str .. | .trap .. | .rti .. | .res .. => false

/-- BR (R29). -/
def isBranch : Instr → Bool
  | .br .. => true
  | .addReg .. | .addImm .. | .andReg .. | .andImm .. | .jmp .. | .jsr .. | .jsrr .. | .ld .. | .ldi ..
  | .ldr .. | .lea .. | .notReg .. | .st .. | .sti .. | .str .. | .trap .. | .rti .. | .res .. => false

/-- The PC after images with these origins are loaded in order, each moving it only while it is 0 (R133). -/
def entryOf (pc : Word) : List Nat → Word
  | [] => pc
  | o :: os => entryOf (if pc = 0#16 then BitVec.ofNat 16 o else pc) os

/-- The origin of an image that has one. -/
def originOf : ImageFile → Option Nat
  | .tokens (o :: _) => some o
  | .tokens [] | .unreadable => none

end Sys2Proof.Claims

open Sys2Proof Sys2Proof.Machine Sys2Proof.Claims

/-! ### Encoding -/

/-- 30_encoding.md sections 2 to 4, opcode_table.json: the decoder reads every instruction's own word back, with every
operand and every ignored bit at every value (positions of GK1, GK2; log 9). -/
def Obligations.DecodeOfEncodeIsTheInstruction : Prop :=
  ∀ i : Instr, i.wf = true → decodeWord (encode i) = i

/-- 30_encoding.md section 4 ("every 16-bit word decodes to exactly one row"): every word is the word of the instruction
it decodes to, so no two words share an instruction and no bit is lost (log 8, log 9). -/
def Obligations.EncodeOfDecodeIsTheWord : Prop :=
  ∀ w : Word, (decodeWord w).wf = true ∧ encode (decodeWord w) = w

/-- 30_encoding.md sections 1 and 3: each bit string of the format table decodes to its row, for all field values. The
positions of NOT, PCREL, BASE and TRAP and the JSR/JSRR polarity are the spec's from general knowledge (GK1, GK2; log 9). -/
def Obligations.EveryFormatDecodesToItsRow : Prop :=
  ∀ (d a b : RegId) (g2 : BitVec 2) (g3 : BitVec 3) (v4 : BitVec 4) (i5 : BitVec 5) (i6 : BitVec 6)
    (v8 : BitVec 8) (i9 : BitVec 9) (i11 : BitVec 11) (x12 : BitVec 12) (n z p : Bool),
    decodeWord (0b0001#4 ++ d ++ a ++ 0#1 ++ g2 ++ b) = .addReg d a g2 b ∧
    decodeWord (0b0001#4 ++ d ++ a ++ 1#1 ++ i5) = .addImm d a i5 ∧
    decodeWord (0b0101#4 ++ d ++ a ++ 0#1 ++ g2 ++ b) = .andReg d a g2 b ∧
    decodeWord (0b0101#4 ++ d ++ a ++ 1#1 ++ i5) = .andImm d a i5 ∧
    decodeWord (0b1001#4 ++ d ++ a ++ i6) = .notReg d a i6 ∧
    decodeWord (0b0000#4 ++ BitVec.ofBool n ++ BitVec.ofBool z ++ BitVec.ofBool p ++ i9) = .br n z p i9 ∧
    decodeWord (0b1100#4 ++ g3 ++ a ++ i6) = .jmp g3 a i6 ∧
    decodeWord (0b0100#4 ++ 1#1 ++ i11) = .jsr i11 ∧
    decodeWord (0b0100#4 ++ 0#1 ++ g2 ++ a ++ i6) = .jsrr g2 a i6 ∧
    decodeWord (0b0010#4 ++ d ++ i9) = .ld d i9 ∧
    decodeWord (0b1010#4 ++ d ++ i9) = .ldi d i9 ∧
    decodeWord (0b0110#4 ++ d ++ a ++ i6) = .ldr d a i6 ∧
    decodeWord (0b1110#4 ++ d ++ i9) = .lea d i9 ∧
    decodeWord (0b0011#4 ++ d ++ i9) = .st d i9 ∧
    decodeWord (0b1011#4 ++ d ++ i9) = .sti d i9 ∧
    decodeWord (0b0111#4 ++ d ++ a ++ i6) = .str d a i6 ∧
    decodeWord (0b1111#4 ++ v4 ++ v8) = .trap v4 v8 ∧
    decodeWord (0b1000#4 ++ x12) = .rti x12 ∧
    decodeWord (0b1101#4 ++ x12) = .res x12

/-- 95_test_vectors.md and the examples of 41, 43 and 44: words the spec writes out decode to the instructions it names. -/
def Obligations.SpecExampleWordsDecode : Prop :=
  decodeWord 0x1401#16 = .addReg 2#3 0#3 0#2 1#3 ∧ decodeWord 0x523F#16 = .andImm 1#3 0#3 0x1F#5 ∧
  decodeWord 0x0803#16 = .br true false false 3#9 ∧ decodeWord 0xC1C0#16 = .jmp 0#3 7#3 0#6 ∧
  decodeWord 0x4803#16 = .jsr 3#11 ∧ decodeWord 0x4080#16 = .jsrr 0#2 2#3 0#6 ∧
  decodeWord 0xA604#16 = .ldi 3#3 4#9 ∧ decodeWord 0x7441#16 = .str 2#3 1#3 1#6 ∧
  decodeWord 0xF025#16 = .trap 0#4 0x25#8 ∧ decodeWord 0xD123#16 = .res 0x123#12

/-- 30_encoding.md section 4 (ignored bits, D8): every value of the ignored bits has the same effect. For JSRR, the one
of these that can fault, the two results agree but for FAULT_IR, which records the whole word (log 8). -/
def Obligations.IgnoredBitsHaveNoEffect : Prop :=
  (∀ d a b g g' s, exec (.addReg d a g b) s = exec (.addReg d a g' b) s) ∧
  (∀ d a b g g' s, exec (.andReg d a g b) s = exec (.andReg d a g' b) s) ∧
  (∀ d a g g' s, exec (.notReg d a g) s = exec (.notReg d a g') s) ∧
  (∀ h h' a g g' s, exec (.jmp h a g) s = exec (.jmp h' a g') s) ∧
  (∀ h h' a g g' s, ∃ t t', exec (.jsrr h a g) s = .next t ∧ exec (.jsrr h' a g') s = .next t' ∧
    { t with faultIr := s.faultIr } = { t' with faultIr := s.faultIr }) ∧
  (∀ g g' v v' s, exec (.trap g v) s = exec (.trap g' v') s) ∧
  (∀ x x' s, exec (.rti x) s = exec (.rti x') s) ∧
  (∀ x x' s, exec (.res x) s = exec (.res x') s)

/-! ### Operands and flags -/

/-- 00_scope.md section 5 and 30_encoding.md section 2: each immediate keeps its signed value, with the ranges of the
table. -/
def Obligations.SignExtensionKeepsTheSignedValue : Prop :=
  (∀ v : BitVec 5, (sext5 v).toInt = v.toInt ∧ -16 ≤ v.toInt ∧ v.toInt ≤ 15) ∧
  (∀ v : BitVec 6, (sext6 v).toInt = v.toInt ∧ -32 ≤ v.toInt ∧ v.toInt ≤ 31) ∧
  (∀ v : BitVec 9, (sext9 v).toInt = v.toInt ∧ -256 ≤ v.toInt ∧ v.toInt ≤ 255) ∧
  (∀ v : BitVec 11, (sext11 v).toInt = v.toInt ∧ -1024 ≤ v.toInt ∧ v.toInt ≤ 1023)

/-- R27: the three cases of `SetCC(v)`; nothing but the flags changes. -/
def Obligations.SetCCWritesTheSignClass : Prop :=
  ∀ (v : Word) (s : State),
    (v = 0#16 → setCC v s = { s with n := false, z := true, p := false }) ∧
    (v ≠ 0#16 → v.getLsbD 15 = false → setCC v s = { s with n := false, z := false, p := true }) ∧
    (v.getLsbD 15 = true → setCC v s = { s with n := true, z := false, p := false })

/-! ### The meanings, each with the next state it answers -/

/-- R85: ADD, both forms, in every state: the sum modulo 2^16 of the old operands to DR, N Z P from it, nothing else. -/
def Obligations.AddAnswersTheSum : Prop :=
  ∀ (dr sr1 sr2 : RegId) (ign : BitVec 2) (imm5 : BitVec 5) (s : State),
    decodeWord (0b0001#4 ++ dr ++ sr1 ++ 0#1 ++ ign ++ sr2) = .addReg dr sr1 ign sr2 ∧
    decodeWord (0b0001#4 ++ dr ++ sr1 ++ 1#1 ++ imm5) = .addImm dr sr1 imm5 ∧
    exec (.addReg dr sr1 ign sr2) s =
      .next (done (withResult s dr (s.reg sr1 + s.reg sr2)) (s.pc + 1#16)) ∧
    exec (.addImm dr sr1 imm5) s =
      .next (done (withResult s dr (s.reg sr1 + imm5.signExtend 16)) (s.pc + 1#16))

/-- R86: AND, both forms. -/
def Obligations.AndAnswersTheConjunction : Prop :=
  ∀ (dr sr1 sr2 : RegId) (ign : BitVec 2) (imm5 : BitVec 5) (s : State),
    decodeWord (0b0101#4 ++ dr ++ sr1 ++ 0#1 ++ ign ++ sr2) = .andReg dr sr1 ign sr2 ∧
    decodeWord (0b0101#4 ++ dr ++ sr1 ++ 1#1 ++ imm5) = .andImm dr sr1 imm5 ∧
    exec (.andReg dr sr1 ign sr2) s =
      .next (done (withResult s dr (s.reg sr1 &&& s.reg sr2)) (s.pc + 1#16)) ∧
    exec (.andImm dr sr1 imm5) s =
      .next (done (withResult s dr (s.reg sr1 &&& imm5.signExtend 16)) (s.pc + 1#16))

/-- 41_operate.md section 2 (NOT; field positions GK1). -/
def Obligations.NotAnswersTheComplement : Prop :=
  ∀ (dr sr : RegId) (ign : BitVec 6) (s : State),
    exec (.notReg dr sr ign) s = .next (done (withResult s dr (~~~ s.reg sr)) (s.pc + 1#16))

/-- R97: BR moves `pc` by the offset exactly when one of (n and N), (z and Z), (p and P) holds, and so always when nzp = 111
and one flag is set; it writes no flag. -/
def Obligations.BranchTakenByTheTestedFlags : Prop :=
  ∀ (n z p : Bool) (off9 : BitVec 9) (s : State),
    decodeWord (0b0000#4 ++ BitVec.ofBool n ++ BitVec.ofBool z ++ BitVec.ofBool p ++ off9) =
      .br n z p off9 ∧
    exec (.br n z p off9) s =
      .next (done s
        (if (n = true ∧ s.n = true) ∨ (z = true ∧ s.z = true) ∨ (p = true ∧ s.p = true)
         then s.pc + 1#16 + off9.signExtend 16 else s.pc + 1#16)) ∧
    (s.oneHot → exec (.br true true true off9) s =
      .next (done s (s.pc + 1#16 + off9.signExtend 16)))

/-- 43_control.md section 2 (the table of taken branches, derived there): with exactly one flag set, BR is taken exactly
when the condition bit of that flag is 1. -/
def Obligations.BranchTableUnderOneHotFlags : Prop :=
  ∀ (n z p : Bool) (off9 : BitVec 9) (s : State), s.oneHot →
    exec (.br n z p off9) s =
      .next (done s (if (if s.n then n else if s.z then z else p) then pcRel s off9 else s.pc + 1#16))

/-- R99: JMP. BaseR = 7 with a stack that is not empty pops into R7 and goes to the popped word, whatever R7 held; with
an empty stack it goes to R7; any other BaseR goes to that register and leaves the stack alone. -/
def Obligations.JumpAndReturn : Prop :=
  ∀ (ignHi : BitVec 3) (base : RegId) (ignLo : BitVec 6) (s : State),
    decodeWord (0b1100#4 ++ ignHi ++ base ++ ignLo) = .jmp ignHi base ignLo ∧
    (base ≠ 7#3 → exec (.jmp ignHi base ignLo) s = .next (done s (s.reg base))) ∧
    (s.cls = [] → exec (.jmp ignHi base ignLo) s = .next (done s (s.reg base))) ∧
    (∀ rest v, base = 7#3 → s.cls = rest ++ [v] →
      exec (.jmp ignHi base ignLo) s = .next (done { withReg s 7#3 v with cls := rest } v))

/-- 43_control.md section 2 (JSR; polarity GK2; D6): the call below capacity, and the overflow fault at capacity, which
commits nothing. -/
def Obligations.JsrLinksPushesAndBranches : Prop :=
  ∀ (off11 : BitVec 11) (s : State),
    (s.cls.length ≠ s.params.clsDepth →
      exec (.jsr off11) s =
        .next (done { withReg s 7#3 (s.pc + 1#16) with cls := s.cls ++ [s.pc + 1#16] }
          (s.pc + 1#16 + off11.signExtend 16))) ∧
    (s.cls.length = s.params.clsDepth →
      exec (.jsr off11) s = .next (faultedWith s 4 (s.pc + 1#16) (encode (.jsr off11))))

/-- 43_control.md section 2 (JSRR; D6, D7, D17): BaseR is read after R7 is written, so `JSRR R7` goes on to the next
instruction. -/
def Obligations.JsrrReadsBaseAfterTheLink : Prop :=
  ∀ (ignHi : BitVec 2) (base : RegId) (ignLo : BitVec 6) (s : State),
    (s.cls.length ≠ s.params.clsDepth →
      exec (.jsrr ignHi base ignLo) s =
        .next (done { withReg s 7#3 (s.pc + 1#16) with cls := s.cls ++ [s.pc + 1#16] }
          (if base = 7#3 then s.pc + 1#16 else s.reg base))) ∧
    (s.cls.length = s.params.clsDepth →
      exec (.jsrr ignHi base ignLo) s =
        .next (faultedWith s 4 (s.pc + 1#16) (encode (.jsrr ignHi base ignLo))))

/-- R102: every word with opcode 1111 is a TRAP, and TRAP sets `pc` to 0x0000 and, beyond CYCLES, changes nothing, for
every vector (so the place of the vector, GK1, has no effect). -/
def Obligations.TrapSetsPcToTheHaltSentinel : Prop :=
  (∀ x : BitVec 12, ∃ ign vect8, decodeWord (0b1111#4 ++ x) = .trap ign vect8) ∧
  ∀ (ign : BitVec 4) (vect8 : BitVec 8) (s : State), exec (.trap ign vect8) s = .next (done s 0#16)

/-- R81: RTI is a no-op that consumes a cycle. -/
def Obligations.RtiOnlyAdvances : Prop :=
  ∀ (x : BitVec 12) (s : State),
    decodeWord (0b1000#4 ++ x) = .rti x ∧ exec (.rti x) s = .next (done s (s.pc + 1#16))

/-- R82: opcode 1101 is a no-op that consumes a cycle. -/
def Obligations.ReservedOnlyAdvances : Prop :=
  ∀ (x : BitVec 12) (s : State),
    decodeWord (0b1101#4 ++ x) = .res x ∧ exec (.res x) s = .next (done s (s.pc + 1#16))

/-- 44_load_store.md section 2 (LD; positions GK1; D1). -/
def Obligations.LdLoadsOrFaults : Prop :=
  ∀ (dr : RegId) (off9 : BitVec 9) (s : State),
    (accessFault s 2 (pcRel s off9) = none →
      exec (.ld dr off9) s =
        .next (done (withResult s dr (s.mem.read (pcRel s off9).toNat)) (s.pc + 1#16))) ∧
    (∀ c, accessFault s 2 (pcRel s off9) = some c →
      exec (.ld dr off9) s = .next (faultedWith s c (pcRel s off9) (encode (.ld dr off9))))

/-- 44_load_store.md section 2 (LDI; positions GK1): the pointer read is checked first, and the data read only once the
pointer read has passed. -/
def Obligations.LdiLoadsThroughThePointerOrFaults : Prop :=
  ∀ (dr : RegId) (off9 : BitVec 9) (s : State) (ptr : Word), ptr = s.mem.read (pcRel s off9).toNat →
    (accessFault s 2 (pcRel s off9) = none → accessFault s 2 ptr = none →
      exec (.ldi dr off9) s =
        .next (done (withResult s dr (s.mem.read ptr.toNat)) (s.pc + 1#16))) ∧
    (∀ c, accessFault s 2 (pcRel s off9) = some c →
      exec (.ldi dr off9) s = .next (faultedWith s c (pcRel s off9) (encode (.ldi dr off9)))) ∧
    (∀ c, accessFault s 2 (pcRel s off9) = none → accessFault s 2 ptr = some c →
      exec (.ldi dr off9) s = .next (faultedWith s c ptr (encode (.ldi dr off9))))

/-- 44_load_store.md section 2 (LDR; positions GK1): the old base value gives the address, also when DR = BaseR. -/
def Obligations.LdrLoadsOrFaults : Prop :=
  ∀ (dr base : RegId) (off6 : BitVec 6) (s : State),
    (accessFault s 2 (baseRel s base off6) = none →
      exec (.ldr dr base off6) s =
        .next (done (withResult s dr (s.mem.read (baseRel s base off6).toNat)) (s.pc + 1#16))) ∧
    (∀ c, accessFault s 2 (baseRel s base off6) = some c →
      exec (.ldr dr base off6) s =
        .next (faultedWith s c (baseRel s base off6) (encode (.ldr dr base off6))))

/-- 44_load_store.md section 3 (LEA; positions GK1): the address itself, no access, no flag, no fault. -/
def Obligations.LeaAnswersTheAddress : Prop :=
  ∀ (dr : RegId) (off9 : BitVec 9) (s : State),
    exec (.lea dr off9) s = .next (done (withReg s dr (pcRel s off9)) (s.pc + 1#16))

/-- 44_load_store.md section 4 (ST; positions GK1; D1). -/
def Obligations.StStoresOrFaults : Prop :=
  ∀ (sr : RegId) (off9 : BitVec 9) (s : State),
    (accessFault s 3 (pcRel s off9) = none →
      exec (.st sr off9) s =
        .next (done { s with mem := s.mem.write (pcRel s off9).toNat (s.reg sr) } (s.pc + 1#16))) ∧
    (∀ c, accessFault s 3 (pcRel s off9) = some c →
      exec (.st sr off9) s = .next (faultedWith s c (pcRel s off9) (encode (.st sr off9))))

/-- 44_load_store.md section 4 (STI; positions GK1): the pointer is read as a load, the write checked after it as a store. -/
def Obligations.StiStoresThroughThePointerOrFaults : Prop :=
  ∀ (sr : RegId) (off9 : BitVec 9) (s : State) (ptr : Word), ptr = s.mem.read (pcRel s off9).toNat →
    (accessFault s 2 (pcRel s off9) = none → accessFault s 3 ptr = none →
      exec (.sti sr off9) s =
        .next (done { s with mem := s.mem.write ptr.toNat (s.reg sr) } (s.pc + 1#16))) ∧
    (∀ c, accessFault s 2 (pcRel s off9) = some c →
      exec (.sti sr off9) s = .next (faultedWith s c (pcRel s off9) (encode (.sti sr off9)))) ∧
    (∀ c, accessFault s 2 (pcRel s off9) = none → accessFault s 3 ptr = some c →
      exec (.sti sr off9) s = .next (faultedWith s c ptr (encode (.sti sr off9))))

/-- 44_load_store.md section 4 (STR; positions GK1). -/
def Obligations.StrStoresOrFaults : Prop :=
  ∀ (sr base : RegId) (off6 : BitVec 6) (s : State),
    (accessFault s 3 (baseRel s base off6) = none →
      exec (.str sr base off6) s =
        .next (done { s with mem := s.mem.write (baseRel s base off6).toNat (s.reg sr) } (s.pc + 1#16))) ∧
    (∀ c, accessFault s 3 (baseRel s base off6) = some c →
      exec (.str sr base off6) s =
        .next (faultedWith s c (baseRel s base off6) (encode (.str sr base off6))))

/-! ### Memory and the stack controller -/

/-- 20_memory.md section 1 (the address check and the primitives; D1, D3, D5): MemRead and MemWrite check the address with its kind, a read gives the cell and changes
nothing, a write that passes changes exactly one cell. -/
def Obligations.MemoryPrimitivesCheckThenAccess : Prop :=
  ∀ (s : State) (a v : Word), s.mem.wf →
    (∀ kind, accessFault s kind.rangeCause.code a = none → memRead s kind a = .ok (s.mem.read a.toNat)) ∧
    (∀ kind c, accessFault s kind.rangeCause.code a = some c →
      ∃ r, memRead s kind a = .error r ∧ r.cause.code = c ∧ r.addr = a) ∧
    (accessFault s 3 a = none →
      ∃ m, memWrite s a v = .ok { s with mem := m } ∧ m.read a.toNat = v ∧
        ∀ b, b ≠ a.toNat → m.read b = s.mem.read b) ∧
    (∀ c, accessFault s 3 a = some c → ∃ r, memWrite s a v = .error r ∧ r.cause.code = c ∧ r.addr = a) ∧
    (Cause.fetchRange.code = 1#3 ∧ Cause.loadRange.code = 2#3 ∧ Cause.storeRange.code = 3#3 ∧
      AccessKind.fetch.rangeCause = .fetchRange ∧ AccessKind.load.rangeCause = .loadRange ∧
      AccessKind.store.rangeCause = .storeRange)

/-- 42_call_linkage_stack.md section 2 (push and pop; D6): a push on a full stack raises CLS_OVERFLOW with the word as its address, a push below capacity puts the
word on top, a pop takes the top off, and an empty stack has nothing to pop. -/
def Obligations.StackControllerPushAndPop : Prop :=
  ∀ (s : State) (v : Word),
    (s.cls.length = s.params.clsDepth → ∃ r, clsPush s v = .error r ∧ r.cause.code = 4#3 ∧ r.addr = v) ∧
    (s.cls.length ≠ s.params.clsDepth →
      clsPush s v = .ok { s with cls := s.cls ++ [v] } ∧
      clsPop { s with cls := s.cls ++ [v] } = some (v, s)) ∧
    (s.cls = [] → clsPop s = none)

/-- 20_memory.md sections 2 and 5: after a store that commits, the cell holds SR's old value. -/
def Obligations.StoredWordReadsBack : Prop :=
  ∀ (sr base : RegId) (off9 : BitVec 9) (off6 : BitVec 6) (s t : State), s.mem.wf →
    (accessFault s 3 (pcRel s off9) = none → exec (.st sr off9) s = .next t →
      t.mem.read (pcRel s off9).toNat = s.reg sr) ∧
    (accessFault s 2 (pcRel s off9) = none →
      accessFault s 3 (s.mem.read (pcRel s off9).toNat) = none → exec (.sti sr off9) s = .next t →
      t.mem.read (s.mem.read (pcRel s off9).toNat).toNat = s.reg sr) ∧
    (accessFault s 3 (baseRel s base off6) = none → exec (.str sr base off6) s = .next t →
      t.mem.read (baseRel s base off6).toNat = s.reg sr)

/-- 20_memory.md section 5 (fetch is coherent with stores, derived there): a store to the next instruction's cell is what
the next step runs. -/
def Obligations.StoredWordIsFetchedNext : Prop :=
  ∀ (sr : RegId) (s : State), s.mem.wf → s.faulted = false → accessFault s 3 (s.pc + 1#16) = none →
    ∃ t, exec (.st sr 0#9) s = .next t ∧ step t = exec (decodeWord (s.reg sr)) t

/-! ### Frames: what no instruction changes -/

/-- 10_state.md section 2 (the register table, derived there): a register that is not in the instruction's row is
unchanged, whether the step commits or faults. -/
def Obligations.RegisterFrame : Prop :=
  ∀ (i : Instr) (s t : State), exec i s = .next t → ∀ r : RegId, r ∉ mayWrite s i → t.reg r = s.reg r

/-- R28: the flags are those of the value written to DR by a CC-writing instruction that commits, and unchanged by every
other instruction and by every fault. -/
def Obligations.OnlySixInstructionsWriteTheFlags : Prop :=
  ∀ (i : Instr) (s t : State), exec i s = .next t →
    (ccDest i = none → (t.n, t.z, t.p) = (s.n, s.z, s.p)) ∧
    (t.cycles = s.cycles → (t.n, t.z, t.p) = (s.n, s.z, s.p)) ∧
    (∀ dr, ccDest i = some dr → t.cycles ≠ s.cycles →
      (t.n, t.z, t.p) =
        ((t.reg dr).getLsbD 15, t.reg dr == 0#16, !(t.reg dr).getLsbD 15 && t.reg dr != 0#16))

/-- 20_memory.md section 1 (the access table): every cell an instruction does not store to reads as before. -/
def Obligations.MemoryFrame : Prop :=
  ∀ (i : Instr) (s t : State), exec i s = .next t →
    ∀ b : Nat, (∀ a, storesTo s i = some a → b ≠ a.toNat) → t.mem.read b = s.mem.read b

/-- 42_call_linkage_stack.md section 2 (derived there): JSR and JSRR push once if they commit, JMP R7 pops once if the
stack is not empty, and nothing else touches the stack. -/
def Obligations.StackFrame : Prop :=
  ∀ (i : Instr) (s t : State), exec i s = .next t →
    t.cls =
      if pushes i = true ∧ s.cls.length ≠ s.params.clsDepth then s.cls ++ [s.pc + 1#16]
      else if popsLink i = true then s.cls.dropLast
      else s.cls

/-- 10_state.md sections 5 and 8, 60_exceptions.md section 2: an instruction either commits, with CYCLES one more and the
fault state as it was, or faults, with everything but the fault state as it was; the open parameters never change. -/
def Obligations.CommitOrFaultFrame : Prop :=
  ∀ (i : Instr) (s : State), ∃ t, exec i s = .next t ∧ t.params = s.params ∧
    ((t.cycles = s.cycles + 1 ∧ t.faulted = s.faulted ∧ t.faultCause = s.faultCause ∧
        t.faultAddr = s.faultAddr ∧ t.faultIr = s.faultIr) ∨
     (∃ c a, t = faultedWith s c a (encode i)))

/-! ### The step, faults and reset -/

/-- 60_exceptions.md section 2 (D20): a step requested while FAULTED changes nothing. -/
def Obligations.FaultedStepChangesNothing : Prop :=
  ∀ s : State, s.faulted = true → step s = .next s

/-- 40_dispatch.md sections 1 to 3: when the word at `pc` can be fetched and decodes to `i`, the step is `exec i`, which
itself moves `pc` past the word and counts the cycle; the step adds nothing. -/
def Obligations.StepRunsTheDecodedInstruction : Prop :=
  ∀ (s : State) (i : Instr), s.faulted = false → accessFault s 1 s.pc = none →
    decode [s.mem.read s.pc.toNat] = .ok (i, []) → i.wf = true → step s = exec i s

/-- 40_dispatch.md section 2 (the fetch fault; D1, D2): a fetch at 0x8000 or above faults with FETCH_RANGE, a fetch in CLS_REGION with CLS_REGION_ACCESS; `pc` keeps the
faulting address and nothing else but the fault record (and the model's free-value counter, log 6) changes. -/
def Obligations.FetchFaultKeepsThePc : Prop :=
  ∀ s : State, s.faulted = false →
    (0x8000 ≤ s.pc.toNat → ∃ ir k, step s = .next { faultedWith s 1 s.pc ir with freeCount := k }) ∧
    (s.pc.toNat < 0x8000 → s.pc ∈ s.params.clsRegion →
      ∃ ir k, step s = .next { faultedWith s 5 s.pc ir with freeCount := k })

/-- 40_dispatch.md section 1 (the STEP interface; D2, D20): every step request ends in one of two ways: it commits, having run exactly the one instruction at `pc`, or it
faults; a request while FAULTED changes nothing; and no request is left without a next state. -/
def Obligations.EveryStepCommitsOrFaults : Prop :=
  ∀ s : State, ∃ t, step s = .next t ∧
    (s.faulted = true → t = s) ∧
    (s.faulted = false →
      (t.faulted = false ∧ t.cycles = s.cycles + 1 ∧
        exec (decodeWord (s.mem.read s.pc.toNat)) s = .next t) ∨
      (t.faulted = true ∧ ∃ c a ir k, t = { faultedWith s c a ir with freeCount := k }))

/-- R113: whenever a step faults, the record is a row of the table: the cause, what raised it, the address, and the
instruction word as FAULT_IR (unspecified for a fetch fault). -/
def Obligations.FaultRecordFollowsTheCauseTable : Prop :=
  ∀ s t : State, s.faulted = false → step s = .next t → t.faulted = true →
    (t.faultCause = 1 ∧ 0x8000 ≤ s.pc.toNat ∧ t.faultAddr = s.pc) ∨
    (t.faultCause = 5 ∧ s.pc.toNat < 0x8000 ∧ s.pc ∈ s.params.clsRegion ∧ t.faultAddr = s.pc) ∨
    (accessFault s 1 s.pc = none ∧ t.faultIr = s.mem.read s.pc.toNat ∧
      ((t.faultCause = 2 ∧ 0x8000 ≤ t.faultAddr.toNat ∧
          (.load, t.faultAddr) ∈ accesses s (decodeWord t.faultIr)) ∨
       (t.faultCause = 3 ∧ 0x8000 ≤ t.faultAddr.toNat ∧
          (.store, t.faultAddr) ∈ accesses s (decodeWord t.faultIr)) ∨
       (t.faultCause = 4 ∧ pushes (decodeWord t.faultIr) = true ∧
          s.cls.length = s.params.clsDepth ∧ t.faultAddr = s.pc + 1#16) ∨
       (t.faultCause = 5 ∧ t.faultAddr ∈ s.params.clsRegion ∧
          ∃ kind, (kind, t.faultAddr) ∈ accesses s (decodeWord t.faultIr))))

/-- 70_reset_and_hazards.md section 1: reset puts every piece of state at the spec's value, for every CLS_DEPTH, CLS_REGION, INIT_REGS and INIT_MEM;
`State.reset` is the case with the model's own choice of those four (log 2, 3, 4), of which nothing is said here. -/
def Obligations.ResetLeavesTheSpecValues : Prop :=
  (∀ (c : Config) (regs : Vector Word 8) (m : Memory),
    let s := State.resetWith c regs m
    s.pc = 0#16 ∧ (s.n, s.z, s.p) = (false, true, false) ∧ s.regs = regs ∧ s.mem = m ∧ s.params = c ∧
      s.cls = [] ∧ s.cycles = 0 ∧ s.faulted = false) ∧
  ∃ c regs m, core.reset = State.resetWith c regs m

/-! ### Invariants -/

/-- 70_reset_and_hazards.md section 1: the machine invariant holds after reset, for every lawful choice of what the spec leaves open. -/
def Obligations.ResetMeetsTheInvariant : Prop :=
  State.reset.Inv ∧
  ∀ (c : Config) (regs : Vector Word 8) (m : Memory), c.wf → m.wf → (State.resetWith c regs m).Inv

/-- 10_state.md sections 4, 7 and 8, 20_memory.md section 1, 60_exceptions.md section 2: every step keeps the machine
invariant: lawful parameters, canonical memory inside 0x0000–0x7FFF, exactly one flag set, at most CLS_DEPTH entries on the
stack, a known cause when FAULTED. The canonical form of memory is the model's (log 1, 2). -/
def Obligations.StepKeepsTheInvariant : Prop :=
  ∀ s t : State, s.Inv → step s = .next t → t.Inv

/-- 10_state.md section 4 (one-hot flags, derived there), alone and over `exec`: no instruction leaves two flags or none. -/
def Obligations.ExecKeepsFlagsOneHot : Prop :=
  ∀ (i : Instr) (s t : State), s.oneHot → exec i s = .next t → t.oneHot

/-- 70_reset_and_hazards.md section 1 (LOAD): a launch from lawful inputs that is not refused starts in a state with the invariant, for every list of images. -/
def Obligations.LaunchMeetsTheInvariant : Prop :=
  ∀ (c : Config) (regs : Vector Word 8) (m : Memory) (images : List ImageFile) (s : State),
    c.wf → m.wf → launch c regs m images = .ok s → s.Inv

/-- 60_exceptions.md section 6 (the run-loop): the state a run ends in has the invariant, over any budget. -/
def Obligations.RunLoopKeepsTheInvariant : Prop :=
  ∀ (budget : Nat) (s t : State) (e : RunEnd), s.Inv → runLoop budget s = .next (e, t) → t.Inv

/-! ### What an instruction cannot see -/

/-- 10_state.md section 4: only BR reads the flags. Any other instruction, run with other flags, does the same to
everything else. -/
def Obligations.OnlyBranchReadsTheFlags : Prop :=
  ∀ (i : Instr) (s : State) (a b c : Bool), isBranch i = false →
    ∃ t t', exec i s = .next t ∧ exec i { s with n := a, z := b, p := c } = .next t' ∧
      { t' with n := t.n, z := t.z, p := t.p } = t

/-- 10_state.md sections 5 and 8: no instruction reads CYCLES or the fault state: run with other values there, it does the
same to everything else. -/
def Obligations.CyclesAndFaultStateAreUnread : Prop :=
  ∀ (i : Instr) (s : State) (k : Nat) (f : Bool) (c : BitVec 3) (a ir : Word),
    ∃ t t', exec i s = .next t ∧
      exec i { s with cycles := k, faulted := f, faultCause := c, faultAddr := a, faultIr := ir } =
        .next t' ∧
      { t' with cycles := t.cycles, faulted := t.faulted, faultCause := t.faultCause,
                faultAddr := t.faultAddr, faultIr := t.faultIr } = t

/-- 42_call_linkage_stack.md section 1 (D4): the stack is in the controller's own storage: an instruction that neither
pushes nor pops does the same whatever the stack holds, and leaves it as it is. -/
def Obligations.StackIsHiddenFromOtherInstructions : Prop :=
  ∀ (i : Instr) (s : State) (entries : List Word), pushes i = false → popsLink i = false →
    ∃ t, exec i s = .next t ∧ exec i { s with cls := entries } = .next { t with cls := entries }

/-! ### Calls, loading, the run-loop and inspection -/

/-- R95: JSR saves P into R7 and onto the stack and sets PC; a later `JMP R7`, in any state whose stack is the one the call
left, pops P into R7, sets PC to P and leaves the stack as it was before the call. -/
def Obligations.CallReturnRoundTrip : Prop :=
  ∀ (off11 : BitVec 11) (g : BitVec 3) (h : BitVec 6) (s : State), s.cls.length ≠ s.params.clsDepth →
    ∃ t, exec (.jsr off11) s = .next t ∧ t.reg 7#3 = s.pc + 1#16 ∧ t.cls = s.cls ++ [s.pc + 1#16] ∧
      t.pc = s.pc + 1#16 + off11.signExtend 16 ∧
      ∀ u : State, u.cls = t.cls →
        ∃ v, exec (.jmp g 7#3 h) u = .next v ∧ v.reg 7#3 = s.pc + 1#16 ∧ v.pc = s.pc + 1#16 ∧
          v.cls = s.cls

/-- 70_reset_and_hazards.md section 1 (LOAD): an image that fits puts token k at origin + k − 1, leaves every other cell,
and changes nothing but memory and `pc`. -/
def Obligations.LoadPlacesTheImage : Prop :=
  ∀ (origin : Nat) (words : List Nat) (s : State), s.mem.wf → origin < 0x8000 →
    origin + words.length ≤ 0x8000 → (∀ w ∈ words, w ≤ 0xFFFF) →
    ∃ t, loadImage (.tokens (origin :: words)) s = .ok t ∧
      (∀ k w, words[k]? = some w → (t.mem.read (origin + k)).toNat = w) ∧
      (∀ b, b < origin ∨ origin + words.length ≤ b → t.mem.read b = s.mem.read b) ∧
      t = { s with mem := t.mem, pc := if s.pc = 0#16 then BitVec.ofNat 16 origin else s.pc }

/-- 70_reset_and_hazards.md section 1 (refusals; D23): an image is refused exactly when its file is unreadable or empty,
it does not fit, or a data token is above 0xFFFF. -/
def Obligations.LoadRefusesExactlyTheseImages : Prop :=
  (∀ s, loadImage .unreadable s = .error .missingFile) ∧
  (∀ s, loadImage (.tokens []) s = .error .emptyFile) ∧
  (∀ origin words s,
    (∃ e, loadImage (.tokens (origin :: words)) s = .error e) ↔
      0x8000 ≤ origin ∨ 0x8000 < origin + words.length ∨ ∃ w ∈ words, 0xFFFF < w)

/-- 70_reset_and_hazards.md section 1 (PC after loading, D16) and section 1 (entry state): after a launch, `pc` is set by
the origins in load order, each moving it only while it is 0; flags, registers, stack, CYCLES and FAULTED are as reset. -/
def Obligations.LaunchEntryState : Prop :=
  ∀ (c : Config) (regs : Vector Word 8) (m : Memory) (images : List ImageFile) (s : State),
    launch c regs m images = .ok s →
      s.pc = entryOf 0#16 (images.filterMap originOf) ∧ (s.n, s.z, s.p) = (false, true, false) ∧
      s.regs = regs ∧ s.params = c ∧ s.cls = [] ∧ s.cycles = 0 ∧ s.faulted = false

/-- 60_exceptions.md section 6: every run of any budget ends, in (a) with PC = 0 and no fault, in (b) FAULTED, or in (c)
with neither and exactly `budget` more cycles. Where both (a) and (b) hold the model reports (b) (log 11). -/
def Obligations.RunEndsHaltedFaultedOrOutOfBudget : Prop :=
  ∀ (budget : Nat) (s : State), ∃ e t, runLoop budget s = .next (e, t) ∧
    (e = .halted → t.pc = 0#16 ∧ t.faulted = false) ∧
    (e = .faulted → t.faulted = true) ∧
    (e = .unfinished → t.pc ≠ 0#16 ∧ t.faulted = false ∧ t.cycles = s.cycles + budget) ∧
    t.cycles ≤ s.cycles + budget

/-- 60_exceptions.md section 7 (INSPECT): the snapshot is the state's own values, a range of memory is its cells in order,
and the stack is not visible. -/
def Obligations.InspectShowsTheStateButNotTheStack : Prop :=
  (∀ s : State, inspectState s =
    { pc := s.pc, n := s.n, z := s.z, p := s.p, regs := s.regs, cycles := s.cycles,
      halted := s.pc == 0#16, faulted := s.faulted, faultCause := s.faultCause,
      faultAddr := s.faultAddr, faultIr := s.faultIr }) ∧
  (∀ (s : State) (lo hi : Nat), lo ≤ hi → hi < 0x8000 →
    ∃ l, inspectMemory lo hi s = some l ∧ l.length = hi + 1 - lo ∧
      ∀ k, lo + k ≤ hi → l[k]? = some (s.mem.read (lo + k))) ∧
  (∀ (s : State) (entries : List Word) (lo hi : Nat),
    inspectState { s with cls := entries } = inspectState s ∧
    inspectMemory lo hi { s with cls := entries } = inspectMemory lo hi s)
end

