-- ==== Sys2Proof/Laws/Decode.lean ====
section
/-! SUPPORT. The decoder row by row: the four opcode bits select the arm (spec/30_encoding.md R66), and a field is known
by its bits. -/

namespace Sys2Proof

/-- A field is the bits it is made of. -/
theorem fieldOf_eq_of_bits {w : Word} {lo len : Nat} {v : BitVec len}
    (h : ∀ k, k < len → w.getLsbD (lo + k) = v.getLsbD k) : fieldOf w lo len = v := by
  apply BitVec.eq_of_getLsbD_eq
  intro k hk
  simp only [fieldOf, BitVec.getLsbD_extractLsb', hk, decide_true, Bool.true_and]
  exact h k hk

section
variable {w : Word}

theorem decodeWord_0000 (h15 : bitOf w 15 = false) (h14 : bitOf w 14 = false) (h13 : bitOf w 13 = false)
    (h12 : bitOf w 12 = false) :
    decodeWord w = .br (bitOf w 11) (bitOf w 10) (bitOf w 9) (fieldOf w 0 9) := by
  unfold decodeWord; rw [h15, h14, h13, h12]

theorem decodeWord_0001 (h15 : bitOf w 15 = false) (h14 : bitOf w 14 = false) (h13 : bitOf w 13 = false)
    (h12 : bitOf w 12 = true) : decodeWord w = decodeAdd w := by
  unfold decodeWord; rw [h15, h14, h13, h12]

theorem decodeWord_0010 (h15 : bitOf w 15 = false) (h14 : bitOf w 14 = false) (h13 : bitOf w 13 = true)
    (h12 : bitOf w 12 = false) : decodeWord w = .ld (fieldOf w 9 3) (fieldOf w 0 9) := by
  unfold decodeWord; rw [h15, h14, h13, h12]

theorem decodeWord_0011 (h15 : bitOf w 15 = false) (h14 : bitOf w 14 = false) (h13 : bitOf w 13 = true)
    (h12 : bitOf w 12 = true) : decodeWord w = .st (fieldOf w 9 3) (fieldOf w 0 9) := by
  unfold decodeWord; rw [h15, h14, h13, h12]

theorem decodeWord_0100 (h15 : bitOf w 15 = false) (h14 : bitOf w 14 = true) (h13 : bitOf w 13 = false)
    (h12 : bitOf w 12 = false) : decodeWord w = decodeCall w := by
  unfold decodeWord; rw [h15, h14, h13, h12]

theorem decodeWord_0101 (h15 : bitOf w 15 = false) (h14 : bitOf w 14 = true) (h13 : bitOf w 13 = false)
    (h12 : bitOf w 12 = true) : decodeWord w = decodeAnd w := by
  unfold decodeWord; rw [h15, h14, h13, h12]

theorem decodeWord_0110 (h15 : bitOf w 15 = false) (h14 : bitOf w 14 = true) (h13 : bitOf w 13 = true)
    (h12 : bitOf w 12 = false) :
    decodeWord w = .ldr (fieldOf w 9 3) (fieldOf w 6 3) (fieldOf w 0 6) := by
  unfold decodeWord; rw [h15, h14, h13, h12]

theorem decodeWord_0111 (h15 : bitOf w 15 = false) (h14 : bitOf w 14 = true) (h13 : bitOf w 13 = true)
    (h12 : bitOf w 12 = true) :
    decodeWord w = .str (fieldOf w 9 3) (fieldOf w 6 3) (fieldOf w 0 6) := by
  unfold decodeWord; rw [h15, h14, h13, h12]

theorem decodeWord_1000 (h15 : bitOf w 15 = true) (h14 : bitOf w 14 = false) (h13 : bitOf w 13 = false)
    (h12 : bitOf w 12 = false) : decodeWord w = .rti (fieldOf w 0 12) := by
  unfold decodeWord; rw [h15, h14, h13, h12]

theorem decodeWord_1001 (h15 : bitOf w 15 = true) (h14 : bitOf w 14 = false) (h13 : bitOf w 13 = false)
    (h12 : bitOf w 12 = true) :
    decodeWord w = .notReg (fieldOf w 9 3) (fieldOf w 6 3) (fieldOf w 0 6) := by
  unfold decodeWord; rw [h15, h14, h13, h12]

theorem decodeWord_1010 (h15 : bitOf w 15 = true) (h14 : bitOf w 14 = false) (h13 : bitOf w 13 = true)
    (h12 : bitOf w 12 = false) : decodeWord w = .ldi (fieldOf w 9 3) (fieldOf w 0 9) := by
  unfold decodeWord; rw [h15, h14, h13, h12]

theorem decodeWord_1011 (h15 : bitOf w 15 = true) (h14 : bitOf w 14 = false) (h13 : bitOf w 13 = true)
    (h12 : bitOf w 12 = true) : decodeWord w = .sti (fieldOf w 9 3) (fieldOf w 0 9) := by
  unfold decodeWord; rw [h15, h14, h13, h12]

theorem decodeWord_1100 (h15 : bitOf w 15 = true) (h14 : bitOf w 14 = true) (h13 : bitOf w 13 = false)
    (h12 : bitOf w 12 = false) :
    decodeWord w = .jmp (fieldOf w 9 3) (fieldOf w 6 3) (fieldOf w 0 6) := by
  unfold decodeWord; rw [h15, h14, h13, h12]

theorem decodeWord_1101 (h15 : bitOf w 15 = true) (h14 : bitOf w 14 = true) (h13 : bitOf w 13 = false)
    (h12 : bitOf w 12 = true) : decodeWord w = .res (fieldOf w 0 12) := by
  unfold decodeWord; rw [h15, h14, h13, h12]

theorem decodeWord_1110 (h15 : bitOf w 15 = true) (h14 : bitOf w 14 = true) (h13 : bitOf w 13 = true)
    (h12 : bitOf w 12 = false) : decodeWord w = .lea (fieldOf w 9 3) (fieldOf w 0 9) := by
  unfold decodeWord; rw [h15, h14, h13, h12]

theorem decodeWord_1111 (h15 : bitOf w 15 = true) (h14 : bitOf w 14 = true) (h13 : bitOf w 13 = true)
    (h12 : bitOf w 12 = true) : decodeWord w = .trap (fieldOf w 8 4) (fieldOf w 0 8) := by
  unfold decodeWord; rw [h15, h14, h13, h12]

end

end Sys2Proof
end

