-- ==== Sys2Proof/Laws/Memory.lean ====
section
/-! SUPPORT. The laws of the word memory: a read after a write, and that every memory operation keeps the canonical form
(spec/20_memory.md R47, R54). -/

namespace Sys2Proof.Machine

@[simp] theorem Memory.read_nil (a : Nat) : Memory.read [] a = unlistedWord := rfl

theorem Memory.read_cons (b : Nat) (w : Word) (rest : Memory) (a : Nat) :
    Memory.read ((b, w) :: rest) a = if b = a then w else Memory.read rest a := rfl

/-- A cell that no entry names reads as an unlisted cell. -/
theorem Memory.read_of_not_listed (m : Memory) (a : Nat) (h : a ∉ m.map Prod.fst) :
    m.read a = unlistedWord := by
  induction m with
  | nil => rfl
  | cons c rest ih =>
    obtain ⟨b, w⟩ := c
    simp only [List.map_cons, List.mem_cons, not_or] at h
    simp [Memory.read_cons, Ne.symm h.1, ih h.2]

theorem Memory.read_put_other (a : Nat) (v : Word) (rest : Memory) {b : Nat} (h : b ≠ a) :
    (Memory.put a v rest).read b = Memory.read rest b := by
  unfold Memory.put
  split <;> simp [Memory.read_cons, Ne.symm h]

/-- Listing a cell that `rest` does not list gives that cell its word. -/
theorem Memory.read_put_same (a : Nat) (v : Word) (rest : Memory) (h : a ∉ rest.map Prod.fst) :
    (Memory.put a v rest).read a = v := by
  unfold Memory.put
  split
  · rename_i hv
    rw [Memory.read_of_not_listed rest a h, hv]
  · simp [Memory.read_cons]

/-- A write leaves every other cell alone, in any list of cells. -/
theorem Memory.read_write_other (m : Memory) (a : Nat) (v : Word) {b : Nat} (h : b ≠ a) :
    (m.write a v).read b = m.read b := by
  induction m with
  | nil => simp [Memory.write, Memory.read_put_other a v [] h]
  | cons c rest ih =>
    obtain ⟨k, w⟩ := c
    unfold Memory.write
    split
    · exact Memory.read_put_other a v _ h
    · split
      · rename_i hk
        subst hk
        simp [Memory.read_put_other a v rest h, Memory.read_cons, Ne.symm h]
      · simp [Memory.read_cons, ih]

/-- The cells of a memory whose first cell lies above `a` do not list `a`. -/
theorem Memory.not_listed_of_below {m : Memory} {a : Nat} (h : ∀ b ∈ m.map Prod.fst, a < b) :
    a ∉ m.map Prod.fst := fun ha => absurd (h a ha) (Nat.lt_irrefl a)

theorem Memory.wf_tail {c : Cell} {rest : Memory} (h : Memory.wf (c :: rest)) : rest.wf :=
  ⟨(List.pairwise_cons.mp h.1).2, fun d hd => h.2 d (List.mem_cons_of_mem c hd)⟩

theorem Memory.wf_head_below {c : Cell} {rest : Memory} (h : Memory.wf (c :: rest)) :
    ∀ b ∈ rest.map Prod.fst, c.1 < b := (List.pairwise_cons.mp h.1).1

/-- A read of the cell just written gives the word written (R54). -/
theorem Memory.read_write_same (m : Memory) (a : Nat) (v : Word) (hm : m.wf) :
    (m.write a v).read a = v := by
  induction m with
  | nil => exact Memory.read_put_same a v [] (by simp)
  | cons c rest ih =>
    obtain ⟨k, w⟩ := c
    have hbelow := Memory.wf_head_below hm
    unfold Memory.write
    split
    · rename_i hlt
      refine Memory.read_put_same a v _ (Memory.not_listed_of_below fun b hb => ?_)
      rcases List.mem_cons.mp hb with rfl | hb
      · exact hlt
      · exact Nat.lt_trans hlt (hbelow b hb)
    · split
      · rename_i hk
        subst hk
        exact Memory.read_put_same a v rest (Memory.not_listed_of_below hbelow)
      · rename_i hk
        simp [Memory.read_cons, Ne.symm hk, ih (Memory.wf_tail hm)]

theorem Memory.put_wf {a : Nat} {v : Word} {rest : Memory} (ha : a < memWords) (hr : rest.wf)
    (hbelow : ∀ b ∈ rest.map Prod.fst, a < b) : (Memory.put a v rest).wf := by
  unfold Memory.put
  split
  · exact hr
  · rename_i hv
    refine ⟨List.pairwise_cons.mpr ⟨hbelow, hr.1⟩, fun c hc => ?_⟩
    rcases List.mem_cons.mp hc with rfl | hc
    · exact ⟨ha, hv⟩
    · exact hr.2 c hc

/-- The addresses a write lists are the written one and those listed before. -/
theorem Memory.write_addresses (m : Memory) (a : Nat) (v : Word) :
    ∀ b ∈ (m.write a v).map Prod.fst, b = a ∨ b ∈ m.map Prod.fst := by
  have hput : ∀ rest : Memory, ∀ b ∈ (Memory.put a v rest).map Prod.fst,
      b = a ∨ b ∈ rest.map Prod.fst := by
    intro rest b hb
    unfold Memory.put at hb
    split at hb
    · exact .inr hb
    · simpa using hb
  induction m with
  | nil => exact hput []
  | cons c rest ih =>
    obtain ⟨k, w⟩ := c
    intro b hb
    unfold Memory.write at hb
    split at hb
    · exact hput _ b hb
    · split at hb
      · exact (hput _ b hb).imp_right (List.mem_cons_of_mem k)
      · rcases List.mem_cons.mp hb with rfl | hb
        · exact .inr (List.mem_cons_self ..)
        · exact (ih b hb).imp_right (List.mem_cons_of_mem k)

/-- A write inside the memory keeps the canonical form. -/
theorem Memory.write_wf (m : Memory) (a : Nat) (v : Word) (ha : a < memWords) (hm : m.wf) :
    (m.write a v).wf := by
  induction m with
  | nil => exact Memory.put_wf ha hm (by simp)
  | cons c rest ih =>
    obtain ⟨k, w⟩ := c
    have hbelow := Memory.wf_head_below hm
    have hrest := Memory.wf_tail hm
    unfold Memory.write
    split
    · rename_i hlt
      refine Memory.put_wf ha hm fun b hb => ?_
      rcases List.mem_cons.mp hb with rfl | hb
      · exact hlt
      · exact Nat.lt_trans hlt (hbelow b hb)
    · split
      · rename_i hk
        subst hk
        exact Memory.put_wf ha hrest hbelow
      · rename_i hlt hk
        have ih' := ih hrest
        refine ⟨List.pairwise_cons.mpr ⟨fun b hb => ?_, ih'.1⟩, fun d hd => ?_⟩
        · rcases Memory.write_addresses rest a v b hb with rfl | hb
          · simp only at hlt hk ⊢; omega
          · exact hbelow b hb
        · rcases List.mem_cons.mp hd with rfl | hd
          · exact hm.2 _ (List.mem_cons_self ..)
          · exact ih'.2 d hd

/-- Writing consecutive words inside the memory keeps the canonical form (R132). -/
theorem Memory.writeWords_wf (vs : List Word) (m : Memory) (a : Nat) (ha : a + vs.length ≤ memWords)
    (hm : m.wf) : (m.writeWords a vs).wf := by
  induction vs generalizing m a with
  | nil => exact hm
  | cons v vs ih =>
    simp only [List.length_cons] at ha
    exact ih (m.write a v) (a + 1) (by omega) (Memory.write_wf m a v (by omega) hm)

@[simp] theorem Memory.writeWords_cons (m : Memory) (a : Nat) (v : Word) (vs : List Word) :
    m.writeWords a (v :: vs) = (m.write a v).writeWords (a + 1) vs := rfl

/-- Writing consecutive words leaves every cell before and after them alone. -/
theorem Memory.read_writeWords_outside (vs : List Word) (m : Memory) (a : Nat) {b : Nat}
    (h : b < a ∨ a + vs.length ≤ b) : (m.writeWords a vs).read b = m.read b := by
  induction vs generalizing m a with
  | nil => rfl
  | cons v vs ih =>
    simp only [List.length_cons] at h
    rw [Memory.writeWords_cons, ih _ _ (by omega), Memory.read_write_other _ _ _ (by omega)]

/-- Writing consecutive words puts word `k` at `a + k`. -/
theorem Memory.read_writeWords_inside (vs : List Word) (m : Memory) (a k : Nat) (w : Word) (hm : m.wf)
    (hb : a + vs.length ≤ memWords) (h : vs[k]? = some w) : (m.writeWords a vs).read (a + k) = w := by
  induction vs generalizing m a k with
  | nil => simp at h
  | cons v vs ih =>
    simp only [List.length_cons] at hb
    rw [Memory.writeWords_cons]
    cases k with
    | zero =>
      rw [Memory.read_writeWords_outside _ _ _ (by omega)]
      simp only [List.getElem?_cons_zero, Option.some.injEq] at h
      subst h
      exact Memory.read_write_same _ _ _ hm
    | succ k =>
      rw [show a + (k + 1) = a + 1 + k by omega]
      exact ih _ _ _ (Memory.write_wf _ _ _ (by omega) hm) (by omega) (by simpa using h)

/-- Reset memory, with nothing listed, has the canonical form. -/
theorem State.reset_mem_wf : State.reset.mem.wf := by decide

/-! ### Loading (R132) -/

theorem fitsInMemory_iff {origin count : Nat} :
    fitsInMemory origin count = true ↔ origin < memWords ∧ origin + count ≤ memWords := by
  unfold fitsInMemory
  rw [Bool.and_eq_true, decide_eq_true_iff, decide_eq_true_iff]

/-- An image that loads is made of an origin and words that fit, and changes memory and `pc` alone. -/
theorem loadImage_ok {f : ImageFile} {s t : State} (h : loadImage f s = .ok t) :
    ∃ origin words, f = .tokens (origin :: words) ∧ origin + words.length ≤ memWords ∧
      t = (s.setMem (s.mem.writeWords origin (words.map (BitVec.ofNat 16)))).setPc
        (entryPc s.pc origin) := by
  unfold loadImage at h
  split at h
  · cases h
  · cases h
  · split at h
    · cases h
    · rename_i hf
      split at h
      · cases h
      · cases h
        exact ⟨_, _, rfl, (fitsInMemory_iff.mp (by simpa using hf)).2, rfl⟩

end Sys2Proof.Machine
end

