-- ==== Sys2Proof/Laws/State.lean ====
section
/-! SUPPORT. One lemma per field per state update, each true by unfolding the update, so that no proof unfolds a record
update again; and the laws of reading a register after an update. -/

namespace Sys2Proof.Machine

/-! ### setPc -/

@[simp] theorem State.setPc_params (s : State) (t : Word) : (s.setPc t).params = s.params := rfl
@[simp] theorem State.setPc_pc (s : State) (t : Word) : (s.setPc t).pc = t := rfl
@[simp] theorem State.setPc_n (s : State) (t : Word) : (s.setPc t).n = s.n := rfl
@[simp] theorem State.setPc_z (s : State) (t : Word) : (s.setPc t).z = s.z := rfl
@[simp] theorem State.setPc_p (s : State) (t : Word) : (s.setPc t).p = s.p := rfl
@[simp] theorem State.setPc_regs (s : State) (t : Word) : (s.setPc t).regs = s.regs := rfl
@[simp] theorem State.setPc_mem (s : State) (t : Word) : (s.setPc t).mem = s.mem := rfl
@[simp] theorem State.setPc_cls (s : State) (t : Word) : (s.setPc t).cls = s.cls := rfl
@[simp] theorem State.setPc_cycles (s : State) (t : Word) : (s.setPc t).cycles = s.cycles := rfl
@[simp] theorem State.setPc_faulted (s : State) (t : Word) : (s.setPc t).faulted = s.faulted := rfl
@[simp] theorem State.setPc_faultCause (s : State) (t : Word) : (s.setPc t).faultCause = s.faultCause := rfl
@[simp] theorem State.setPc_faultAddr (s : State) (t : Word) : (s.setPc t).faultAddr = s.faultAddr := rfl
@[simp] theorem State.setPc_faultIr (s : State) (t : Word) : (s.setPc t).faultIr = s.faultIr := rfl
@[simp] theorem State.setPc_freeCount (s : State) (t : Word) : (s.setPc t).freeCount = s.freeCount := rfl
@[simp] theorem State.setPc_reg (s : State) (t : Word) (q : RegId) : (s.setPc t).reg q = s.reg q := rfl

/-! ### setReg -/

@[simp] theorem State.setReg_params (s : State) (r : RegId) (v : Word) : (s.setReg r v).params = s.params := rfl
@[simp] theorem State.setReg_pc (s : State) (r : RegId) (v : Word) : (s.setReg r v).pc = s.pc := rfl
@[simp] theorem State.setReg_n (s : State) (r : RegId) (v : Word) : (s.setReg r v).n = s.n := rfl
@[simp] theorem State.setReg_z (s : State) (r : RegId) (v : Word) : (s.setReg r v).z = s.z := rfl
@[simp] theorem State.setReg_p (s : State) (r : RegId) (v : Word) : (s.setReg r v).p = s.p := rfl
@[simp] theorem State.setReg_regs (s : State) (r : RegId) (v : Word) : (s.setReg r v).regs = s.regs.set r.toNat v r.isLt := rfl
@[simp] theorem State.setReg_mem (s : State) (r : RegId) (v : Word) : (s.setReg r v).mem = s.mem := rfl
@[simp] theorem State.setReg_cls (s : State) (r : RegId) (v : Word) : (s.setReg r v).cls = s.cls := rfl
@[simp] theorem State.setReg_cycles (s : State) (r : RegId) (v : Word) : (s.setReg r v).cycles = s.cycles := rfl
@[simp] theorem State.setReg_faulted (s : State) (r : RegId) (v : Word) : (s.setReg r v).faulted = s.faulted := rfl
@[simp] theorem State.setReg_faultCause (s : State) (r : RegId) (v : Word) : (s.setReg r v).faultCause = s.faultCause := rfl
@[simp] theorem State.setReg_faultAddr (s : State) (r : RegId) (v : Word) : (s.setReg r v).faultAddr = s.faultAddr := rfl
@[simp] theorem State.setReg_faultIr (s : State) (r : RegId) (v : Word) : (s.setReg r v).faultIr = s.faultIr := rfl
@[simp] theorem State.setReg_freeCount (s : State) (r : RegId) (v : Word) : (s.setReg r v).freeCount = s.freeCount := rfl

/-! ### setFlags -/

@[simp] theorem State.setFlags_params (s : State) (a b c : Bool) : (s.setFlags a b c).params = s.params := rfl
@[simp] theorem State.setFlags_pc (s : State) (a b c : Bool) : (s.setFlags a b c).pc = s.pc := rfl
@[simp] theorem State.setFlags_n (s : State) (a b c : Bool) : (s.setFlags a b c).n = a := rfl
@[simp] theorem State.setFlags_z (s : State) (a b c : Bool) : (s.setFlags a b c).z = b := rfl
@[simp] theorem State.setFlags_p (s : State) (a b c : Bool) : (s.setFlags a b c).p = c := rfl
@[simp] theorem State.setFlags_regs (s : State) (a b c : Bool) : (s.setFlags a b c).regs = s.regs := rfl
@[simp] theorem State.setFlags_mem (s : State) (a b c : Bool) : (s.setFlags a b c).mem = s.mem := rfl
@[simp] theorem State.setFlags_cls (s : State) (a b c : Bool) : (s.setFlags a b c).cls = s.cls := rfl
@[simp] theorem State.setFlags_cycles (s : State) (a b c : Bool) : (s.setFlags a b c).cycles = s.cycles := rfl
@[simp] theorem State.setFlags_faulted (s : State) (a b c : Bool) : (s.setFlags a b c).faulted = s.faulted := rfl
@[simp] theorem State.setFlags_faultCause (s : State) (a b c : Bool) : (s.setFlags a b c).faultCause = s.faultCause := rfl
@[simp] theorem State.setFlags_faultAddr (s : State) (a b c : Bool) : (s.setFlags a b c).faultAddr = s.faultAddr := rfl
@[simp] theorem State.setFlags_faultIr (s : State) (a b c : Bool) : (s.setFlags a b c).faultIr = s.faultIr := rfl
@[simp] theorem State.setFlags_freeCount (s : State) (a b c : Bool) : (s.setFlags a b c).freeCount = s.freeCount := rfl
@[simp] theorem State.setFlags_reg (s : State) (a b c : Bool) (q : RegId) : (s.setFlags a b c).reg q = s.reg q := rfl

/-! ### setMem -/

@[simp] theorem State.setMem_params (s : State) (m : Memory) : (s.setMem m).params = s.params := rfl
@[simp] theorem State.setMem_pc (s : State) (m : Memory) : (s.setMem m).pc = s.pc := rfl
@[simp] theorem State.setMem_n (s : State) (m : Memory) : (s.setMem m).n = s.n := rfl
@[simp] theorem State.setMem_z (s : State) (m : Memory) : (s.setMem m).z = s.z := rfl
@[simp] theorem State.setMem_p (s : State) (m : Memory) : (s.setMem m).p = s.p := rfl
@[simp] theorem State.setMem_regs (s : State) (m : Memory) : (s.setMem m).regs = s.regs := rfl
@[simp] theorem State.setMem_mem (s : State) (m : Memory) : (s.setMem m).mem = m := rfl
@[simp] theorem State.setMem_cls (s : State) (m : Memory) : (s.setMem m).cls = s.cls := rfl
@[simp] theorem State.setMem_cycles (s : State) (m : Memory) : (s.setMem m).cycles = s.cycles := rfl
@[simp] theorem State.setMem_faulted (s : State) (m : Memory) : (s.setMem m).faulted = s.faulted := rfl
@[simp] theorem State.setMem_faultCause (s : State) (m : Memory) : (s.setMem m).faultCause = s.faultCause := rfl
@[simp] theorem State.setMem_faultAddr (s : State) (m : Memory) : (s.setMem m).faultAddr = s.faultAddr := rfl
@[simp] theorem State.setMem_faultIr (s : State) (m : Memory) : (s.setMem m).faultIr = s.faultIr := rfl
@[simp] theorem State.setMem_freeCount (s : State) (m : Memory) : (s.setMem m).freeCount = s.freeCount := rfl
@[simp] theorem State.setMem_reg (s : State) (m : Memory) (q : RegId) : (s.setMem m).reg q = s.reg q := rfl

/-! ### setCls -/

@[simp] theorem State.setCls_params (s : State) (l : List Word) : (s.setCls l).params = s.params := rfl
@[simp] theorem State.setCls_pc (s : State) (l : List Word) : (s.setCls l).pc = s.pc := rfl
@[simp] theorem State.setCls_n (s : State) (l : List Word) : (s.setCls l).n = s.n := rfl
@[simp] theorem State.setCls_z (s : State) (l : List Word) : (s.setCls l).z = s.z := rfl
@[simp] theorem State.setCls_p (s : State) (l : List Word) : (s.setCls l).p = s.p := rfl
@[simp] theorem State.setCls_regs (s : State) (l : List Word) : (s.setCls l).regs = s.regs := rfl
@[simp] theorem State.setCls_mem (s : State) (l : List Word) : (s.setCls l).mem = s.mem := rfl
@[simp] theorem State.setCls_cls (s : State) (l : List Word) : (s.setCls l).cls = l := rfl
@[simp] theorem State.setCls_cycles (s : State) (l : List Word) : (s.setCls l).cycles = s.cycles := rfl
@[simp] theorem State.setCls_faulted (s : State) (l : List Word) : (s.setCls l).faulted = s.faulted := rfl
@[simp] theorem State.setCls_faultCause (s : State) (l : List Word) : (s.setCls l).faultCause = s.faultCause := rfl
@[simp] theorem State.setCls_faultAddr (s : State) (l : List Word) : (s.setCls l).faultAddr = s.faultAddr := rfl
@[simp] theorem State.setCls_faultIr (s : State) (l : List Word) : (s.setCls l).faultIr = s.faultIr := rfl
@[simp] theorem State.setCls_freeCount (s : State) (l : List Word) : (s.setCls l).freeCount = s.freeCount := rfl
@[simp] theorem State.setCls_reg (s : State) (l : List Word) (q : RegId) : (s.setCls l).reg q = s.reg q := rfl

/-! ### commit -/

@[simp] theorem State.commit_params (s : State) : (s.commit).params = s.params := rfl
@[simp] theorem State.commit_pc (s : State) : (s.commit).pc = s.pc := rfl
@[simp] theorem State.commit_n (s : State) : (s.commit).n = s.n := rfl
@[simp] theorem State.commit_z (s : State) : (s.commit).z = s.z := rfl
@[simp] theorem State.commit_p (s : State) : (s.commit).p = s.p := rfl
@[simp] theorem State.commit_regs (s : State) : (s.commit).regs = s.regs := rfl
@[simp] theorem State.commit_mem (s : State) : (s.commit).mem = s.mem := rfl
@[simp] theorem State.commit_cls (s : State) : (s.commit).cls = s.cls := rfl
@[simp] theorem State.commit_cycles (s : State) : (s.commit).cycles = s.cycles + 1 := rfl
@[simp] theorem State.commit_faulted (s : State) : (s.commit).faulted = s.faulted := rfl
@[simp] theorem State.commit_faultCause (s : State) : (s.commit).faultCause = s.faultCause := rfl
@[simp] theorem State.commit_faultAddr (s : State) : (s.commit).faultAddr = s.faultAddr := rfl
@[simp] theorem State.commit_faultIr (s : State) : (s.commit).faultIr = s.faultIr := rfl
@[simp] theorem State.commit_freeCount (s : State) : (s.commit).freeCount = s.freeCount := rfl
@[simp] theorem State.commit_reg (s : State) (q : RegId) : (s.commit).reg q = s.reg q := rfl

/-! ### recordFault -/

@[simp] theorem State.recordFault_params (s : State) (c : BitVec 3) (a ir : Word) : (s.recordFault c a ir).params = s.params := rfl
@[simp] theorem State.recordFault_pc (s : State) (c : BitVec 3) (a ir : Word) : (s.recordFault c a ir).pc = s.pc := rfl
@[simp] theorem State.recordFault_n (s : State) (c : BitVec 3) (a ir : Word) : (s.recordFault c a ir).n = s.n := rfl
@[simp] theorem State.recordFault_z (s : State) (c : BitVec 3) (a ir : Word) : (s.recordFault c a ir).z = s.z := rfl
@[simp] theorem State.recordFault_p (s : State) (c : BitVec 3) (a ir : Word) : (s.recordFault c a ir).p = s.p := rfl
@[simp] theorem State.recordFault_regs (s : State) (c : BitVec 3) (a ir : Word) : (s.recordFault c a ir).regs = s.regs := rfl
@[simp] theorem State.recordFault_mem (s : State) (c : BitVec 3) (a ir : Word) : (s.recordFault c a ir).mem = s.mem := rfl
@[simp] theorem State.recordFault_cls (s : State) (c : BitVec 3) (a ir : Word) : (s.recordFault c a ir).cls = s.cls := rfl
@[simp] theorem State.recordFault_cycles (s : State) (c : BitVec 3) (a ir : Word) : (s.recordFault c a ir).cycles = s.cycles := rfl
@[simp] theorem State.recordFault_faulted (s : State) (c : BitVec 3) (a ir : Word) : (s.recordFault c a ir).faulted = true := rfl
@[simp] theorem State.recordFault_faultCause (s : State) (c : BitVec 3) (a ir : Word) : (s.recordFault c a ir).faultCause = c := rfl
@[simp] theorem State.recordFault_faultAddr (s : State) (c : BitVec 3) (a ir : Word) : (s.recordFault c a ir).faultAddr = a := rfl
@[simp] theorem State.recordFault_faultIr (s : State) (c : BitVec 3) (a ir : Word) : (s.recordFault c a ir).faultIr = ir := rfl
@[simp] theorem State.recordFault_freeCount (s : State) (c : BitVec 3) (a ir : Word) : (s.recordFault c a ir).freeCount = s.freeCount := rfl
@[simp] theorem State.recordFault_reg (s : State) (c : BitVec 3) (a ir : Word) (q : RegId) : (s.recordFault c a ir).reg q = s.reg q := rfl

/-! ### advanceFree -/

@[simp] theorem State.advanceFree_params (s : State) : (s.advanceFree).params = s.params := rfl
@[simp] theorem State.advanceFree_pc (s : State) : (s.advanceFree).pc = s.pc := rfl
@[simp] theorem State.advanceFree_n (s : State) : (s.advanceFree).n = s.n := rfl
@[simp] theorem State.advanceFree_z (s : State) : (s.advanceFree).z = s.z := rfl
@[simp] theorem State.advanceFree_p (s : State) : (s.advanceFree).p = s.p := rfl
@[simp] theorem State.advanceFree_regs (s : State) : (s.advanceFree).regs = s.regs := rfl
@[simp] theorem State.advanceFree_mem (s : State) : (s.advanceFree).mem = s.mem := rfl
@[simp] theorem State.advanceFree_cls (s : State) : (s.advanceFree).cls = s.cls := rfl
@[simp] theorem State.advanceFree_cycles (s : State) : (s.advanceFree).cycles = s.cycles := rfl
@[simp] theorem State.advanceFree_faulted (s : State) : (s.advanceFree).faulted = s.faulted := rfl
@[simp] theorem State.advanceFree_faultCause (s : State) : (s.advanceFree).faultCause = s.faultCause := rfl
@[simp] theorem State.advanceFree_faultAddr (s : State) : (s.advanceFree).faultAddr = s.faultAddr := rfl
@[simp] theorem State.advanceFree_faultIr (s : State) : (s.advanceFree).faultIr = s.faultIr := rfl
@[simp] theorem State.advanceFree_freeCount (s : State) : (s.advanceFree).freeCount = s.freeCount + 1 := rfl
@[simp] theorem State.advanceFree_reg (s : State) (q : RegId) : (s.advanceFree).reg q = s.reg q := rfl

/-! ### Register reads after a register write (R22: each register holds whatever was last written to it) -/

@[simp] theorem State.reg_setReg_same (s : State) (r : RegId) (v : Word) : (s.setReg r v).reg r = v := by
  simp [State.reg]

theorem State.reg_setReg_other (s : State) {r q : RegId} (v : Word) (h : q ≠ r) :
    (s.setReg r v).reg q = s.reg q := by
  have hne : r.toNat ≠ q.toNat := fun e => h (BitVec.eq_of_toNat_eq e).symm
  simp [State.reg, Vector.getElem_set_ne, hne]

/-- Two states with the same registers, field by field, have the same register file. -/
theorem State.regs_ext {s t : State} (h : ∀ r : RegId, s.reg r = t.reg r) : s.regs = t.regs := by
  refine Vector.ext fun k hk => ?_
  have hk' : (BitVec.ofNat 3 k).toNat = k := by simp; omega
  have := h (BitVec.ofNat 3 k)
  simpa [State.reg, hk'] using this

/-! ### Reset (R131) -/

@[simp] theorem State.resetWith_params (c : Config) (r : Vector Word 8) (m : Memory) :
    (State.resetWith c r m).params = c := rfl
@[simp] theorem State.resetWith_regs (c : Config) (r : Vector Word 8) (m : Memory) :
    (State.resetWith c r m).regs = r := rfl
@[simp] theorem State.resetWith_mem (c : Config) (r : Vector Word 8) (m : Memory) :
    (State.resetWith c r m).mem = m := rfl
@[simp] theorem State.resetWith_cls (c : Config) (r : Vector Word 8) (m : Memory) :
    (State.resetWith c r m).cls = [] := rfl
@[simp] theorem State.resetWith_faulted (c : Config) (r : Vector Word 8) (m : Memory) :
    (State.resetWith c r m).faulted = false := rfl

end Sys2Proof.Machine
end

