-- ==== Sys2Proof/Laws/Ops.lean ====
section
/-! SUPPORT. What each shared operation can do, said once: cite these instead of unfolding the operation. -/

namespace Sys2Proof.Machine

/-! ### The address check and memory access (R46, R47) -/

theorem checkAddress_of_accessible {s : State} {kind : AccessKind} {a : Word} (h : s.accessible a) :
    checkAddress s kind a = .ok () := by
  simp [checkAddress, Nat.not_le.mpr h.1, h.2]

/-- The check answers ok for exactly the accessible addresses. -/
theorem checkAddress_ok_iff {s : State} {kind : AccessKind} {a : Word} {u : Unit} :
    checkAddress s kind a = .ok u ↔ s.accessible a := by
  unfold checkAddress State.accessible
  split
  · simp; omega
  · split <;> simp_all

/-- What a failing check raises: the range cause first, then the region (R46, R116). -/
theorem checkAddress_error_iff {s : State} {kind : AccessKind} {a : Word} {r : Raise} :
    checkAddress s kind a = .error r ↔
      (memWords ≤ a.toNat ∧ r = { cause := kind.rangeCause, addr := a }) ∨
      (a.toNat < memWords ∧ a ∈ s.params.clsRegion ∧ r = { cause := .clsRegionAccess, addr := a }) := by
  unfold checkAddress
  split
  · simp_all [eq_comm]
  · split <;> simp_all [eq_comm]

theorem memRead_of_accessible {s : State} {kind : AccessKind} {a : Word} (h : s.accessible a) :
    memRead s kind a = .ok (s.mem.read a.toNat) := by
  simp [memRead, checkAddress_of_accessible h]

theorem memRead_ok_iff {s : State} {kind : AccessKind} {a v : Word} :
    memRead s kind a = .ok v ↔ s.accessible a ∧ v = s.mem.read a.toNat := by
  by_cases ha : s.accessible a
  · rw [memRead_of_accessible ha]
    exact ⟨fun h => ⟨ha, by simpa using h.symm⟩, fun h => by rw [h.2]⟩
  · refine ⟨fun h => ?_, fun h => absurd h.1 ha⟩
    unfold memRead at h
    split at h
    · rename_i u hu; exact absurd (checkAddress_ok_iff.mp hu) ha
    · cases h

theorem memRead_error_iff {s : State} {kind : AccessKind} {a : Word} {r : Raise} :
    memRead s kind a = .error r ↔ checkAddress s kind a = .error r := by
  unfold memRead
  split <;> simp_all

theorem memWrite_of_accessible {s : State} {a v : Word} (h : s.accessible a) :
    memWrite s a v = .ok (s.setMem (s.mem.write a.toNat v)) := by
  simp [memWrite, checkAddress_of_accessible h]

theorem memWrite_ok_iff {s t : State} {a v : Word} :
    memWrite s a v = .ok t ↔ s.accessible a ∧ t = s.setMem (s.mem.write a.toNat v) := by
  by_cases ha : s.accessible a
  · rw [memWrite_of_accessible ha]
    exact ⟨fun h => ⟨ha, by simpa using h.symm⟩, fun h => by rw [h.2]⟩
  · refine ⟨fun h => ?_, fun h => absurd h.1 ha⟩
    unfold memWrite at h
    split at h
    · rename_i u hu; exact absurd (checkAddress_ok_iff.mp hu) ha
    · cases h

theorem memWrite_error_iff {s : State} {a v : Word} {r : Raise} :
    memWrite s a v = .error r ↔ checkAddress s .store a = .error r := by
  unfold memWrite
  split <;> simp_all

/-! ### The call-linkage stack (R90, R91) -/

theorem clsPush_ok_iff {s t : State} {v : Word} :
    clsPush s v = .ok t ↔ s.clsDepth ≠ s.params.clsDepth ∧ t = s.setCls (s.cls ++ [v]) := by
  unfold clsPush
  split <;> simp_all [eq_comm]

theorem clsPush_error_iff {s : State} {v : Word} {r : Raise} :
    clsPush s v = .error r ↔
      s.clsDepth = s.params.clsDepth ∧ r = { cause := .clsOverflow, addr := v } := by
  unfold clsPush
  split <;> simp_all [eq_comm]

theorem clsPop_empty {s : State} (h : s.cls = []) : clsPop s = none := by simp [clsPop, h]

theorem clsPop_top {s : State} {rest : List Word} {v : Word} (h : s.cls = rest ++ [v]) :
    clsPop s = some (v, s.setCls rest) := by simp [clsPop, h]

/-- The three cases of the pop of JMP (R99). -/
theorem popIntoLink_cases (base : RegId) (s : State) :
    (base ≠ linkReg ∧ popIntoLink base s = s) ∨
    (base = linkReg ∧ s.cls = [] ∧ popIntoLink base s = s) ∨
    (base = linkReg ∧ ∃ rest v, s.cls = rest ++ [v] ∧
      popIntoLink base s = (s.setCls rest).setReg linkReg v) := by
  by_cases hb : base = linkReg
  · rcases List.eq_nil_or_concat s.cls with h | ⟨rest, v, h⟩
    · exact .inr (.inl ⟨hb, h, by simp [popIntoLink, hb, clsPop_empty h]⟩)
    · have h' : s.cls = rest ++ [v] := by simpa using h
      exact .inr (.inr ⟨hb, rest, v, h', by simp [popIntoLink, hb, clsPop_top h']⟩)
  · exact .inl ⟨hb, by simp [popIntoLink, hb]⟩

/-- What JSR and JSRR do before the transfer (R100, R101). -/
theorem linkCall_ok_iff {s t : State} :
    linkCall s = .ok t ↔ s.clsDepth ≠ s.params.clsDepth ∧
      t = (s.setReg linkReg s.pc).setCls (s.cls ++ [s.pc]) := by
  simp [linkCall, clsPush_ok_iff, State.clsDepth]

theorem linkCall_error_iff {s : State} {r : Raise} :
    linkCall s = .error r ↔
      s.clsDepth = s.params.clsDepth ∧ r = { cause := .clsOverflow, addr := s.pc } := by
  simp [linkCall, clsPush_error_iff, State.clsDepth]

/-! ### Flags (R27, R28) -/

/-- `SetCC` as one update of the three flags. -/
theorem setCC_eq (v : Word) (s : State) :
    setCC v s = s.setFlags (v.getLsbD 15) (v == 0#16) (!v.getLsbD 15 && v != 0#16) := by
  unfold setCC
  split
  · rename_i h; subst h; rfl
  · rename_i h
    have hz : (v == 0#16) = false := by simpa using h
    cases hb : v.getLsbD 15 <;> simp [hz, bne]

theorem writeResult_eq (dr : RegId) (v : Word) (s : State) :
    writeResult dr v s =
      (s.setReg dr v).setFlags (v.getLsbD 15) (v == 0#16) (!v.getLsbD 15 && v != 0#16) := by
  simp [writeResult, setCC_eq]

theorem setCC_oneHot (v : Word) (s : State) : (setCC v s).oneHot := by
  unfold setCC
  split
  · simp [State.oneHot]
  · split <;> simp [State.oneHot]

/-- A BR is taken when one of the tested flags is set (R97). Rewrite with this instead of unfolding `branchTaken`. -/
theorem branchTaken_iff {n z p : Bool} {s : State} :
    branchTaken n z p s = true ↔
      (n = true ∧ s.n = true) ∨ (z = true ∧ s.z = true) ∨ (p = true ∧ s.p = true) := by
  simp [branchTaken, or_assoc]

/-! ### Loads (R105–R107) -/

theorem loadInto_ok_iff {dr : RegId} {a : Word} {s t : State} :
    loadInto dr a s = .ok t ↔ s.accessible a ∧ t = writeResult dr (s.mem.read a.toNat) s := by
  unfold loadInto
  cases h : memRead s .load a with
  | ok v =>
    obtain ⟨ha, rfl⟩ := memRead_ok_iff.mp h
    exact ⟨fun e => ⟨ha, by simpa using e.symm⟩, fun e => by rw [e.2]⟩
  | error r =>
    have hn : ¬ s.accessible a := fun ha => by simp [memRead_of_accessible ha] at h
    exact ⟨fun e => (by cases e), fun e => absurd e.1 hn⟩

theorem loadInto_error_iff {dr : RegId} {a : Word} {s : State} {r : Raise} :
    loadInto dr a s = .error r ↔ checkAddress s .load a = .error r := by
  rw [← memRead_error_iff]
  unfold loadInto
  cases h : memRead s .load a <;> simp

/-! ### Fault entry and the parts of a step (R73, R114) -/

@[simp] theorem takeFault_eq (r : Raise) (ir : Word) (s : State) :
    takeFault r ir s = s.recordFault r.cause.code r.addr ir := rfl

@[simp] theorem takeFetchFault_eq (r : Raise) (s : State) :
    takeFetchFault r s =
      (s.recordFault r.cause.code r.addr (Config.freeFaultIr s.freeCount)).advanceFree := rfl

/-- Every cause has one of the codes 1 to 5 (R113). -/
theorem Cause.code_bounds (c : Cause) : 1 ≤ c.code.toNat ∧ c.code.toNat ≤ 5 := by
  cases c <;> decide

theorem fetch_of_accessible {s : State} (h : s.accessible s.pc) :
    fetch s = .ok (s.mem.read s.pc.toNat) := memRead_of_accessible h

/-- A handler either commits or is undone and its fault entered: it answers a next state in both cases. -/
theorem runHandler_next_iff {i : Instr} {h : State → Except Raise State} {s t : State} :
    runHandler i h s = .next t ↔
      (∃ u, h (s.setPc (s.pc + 1#16)) = .ok u ∧ t = u.commit) ∨
      (∃ r, h (s.setPc (s.pc + 1#16)) = .error r ∧ t = takeFault r (encode i) s) := by
  unfold runHandler
  cases h (s.setPc (s.pc + 1#16)) <;> simp [eq_comm]

theorem runHandler_of_ok {i : Instr} {h : State → Except Raise State} {s u : State}
    (e : h (s.setPc (s.pc + 1#16)) = .ok u) : runHandler i h s = .next u.commit := by
  unfold runHandler; rw [e]

theorem runHandler_of_error {i : Instr} {h : State → Except Raise State} {s : State} {r : Raise}
    (e : h (s.setPc (s.pc + 1#16)) = .error r) : runHandler i h s = .next (takeFault r (encode i) s) := by
  unfold runHandler; rw [e]

end Sys2Proof.Machine
end

