-- ==== Sys2Proof/Laws/Exec.lean ====
section
/-! SUPPORT. `exec` as one shape for all instructions, and what a step can do. -/

namespace Sys2Proof.Machine

/-- The handler of each instruction, as its meaning runs it: on the state with `pc` incremented. -/
def handlerOf : Instr → State → Except Raise State
  | .addReg dr sr1 _ sr2 => fun t => .ok (writeResult dr (t.reg sr1 + t.reg sr2) t)
  | .addImm dr sr1 imm5 => fun t => .ok (writeResult dr (t.reg sr1 + sext5 imm5) t)
  | .andReg dr sr1 _ sr2 => fun t => .ok (writeResult dr (t.reg sr1 &&& t.reg sr2) t)
  | .andImm dr sr1 imm5 => fun t => .ok (writeResult dr (t.reg sr1 &&& sext5 imm5) t)
  | .br n z p off9 => fun t => .ok (if branchTaken n z p t then t.setPc (pcRelative t off9) else t)
  | .jmp _ base _ => fun t => .ok ((popIntoLink base t).setPc ((popIntoLink base t).reg base))
  | .jsr off11 => fun t =>
    match linkCall t with
    | .ok u => .ok (u.setPc (pcRelative11 u off11))
    | .error r => .error r
  | .jsrr _ base _ => fun t =>
    match linkCall t with
    | .ok u => .ok (u.setPc (u.reg base))
    | .error r => .error r
  | .ld dr off9 => fun t => loadInto dr (pcRelative t off9) t
  | .ldi dr off9 => fun t =>
    match indirect t off9 with
    | .ok a => loadInto dr a t
    | .error r => .error r
  | .ldr dr base off6 => fun t => loadInto dr (baseOffset t base off6) t
  | .lea dr off9 => fun t => .ok (t.setReg dr (pcRelative t off9))
  | .notReg dr sr _ => fun t => .ok (writeResult dr (~~~ t.reg sr) t)
  | .st sr off9 => fun t => memWrite t (pcRelative t off9) (t.reg sr)
  | .sti sr off9 => fun t =>
    match indirect t off9 with
    | .ok a => memWrite t a (t.reg sr)
    | .error r => .error r
  | .str sr base off6 => fun t => memWrite t (baseOffset t base off6) (t.reg sr)
  | .trap _ _ => fun t => .ok (t.setPc 0#16)
  | .rti _ => fun t => .ok t
  | .res _ => fun t => .ok t

/-- Every meaning is its handler, run in the one shared way. -/
theorem exec_eq_runHandler (i : Instr) (s : State) : exec i s = runHandler i (handlerOf i) s := by
  cases i <;> rfl

/-- What `exec` can answer: a commit of what the handler left, or the fault entry. -/
theorem exec_next_iff {i : Instr} {s t : State} :
    exec i s = .next t ↔
      (∃ u, handlerOf i (s.setPc (s.pc + 1#16)) = .ok u ∧ t = u.commit) ∨
      (∃ r, handlerOf i (s.setPc (s.pc + 1#16)) = .error r ∧ t = takeFault r (encode i) s) := by
  rw [exec_eq_runHandler]; exact runHandler_next_iff

/-- What a step can do: nothing while FAULTED, else run the instruction fetched, else enter the fetch fault. -/
theorem step_next_iff {s t : State} :
    step s = .next t ↔
      (s.faulted = true ∧ t = s) ∨
      (s.faulted = false ∧ s.accessible s.pc ∧ exec (decodeWord (s.mem.read s.pc.toNat)) s = .next t) ∨
      (s.faulted = false ∧ ∃ r, checkAddress s .fetch s.pc = .error r ∧ t = takeFetchFault r s) := by
  unfold step fetch
  by_cases hf : s.faulted = true
  · simp [hf, eq_comm]
  · have hf' : s.faulted = false := by simpa using hf
    rw [if_neg hf]
    cases hr : memRead s .fetch s.pc with
    | ok v =>
      obtain ⟨ha, rfl⟩ := memRead_ok_iff.mp hr
      refine ⟨fun h => .inr (.inl ⟨hf', ha, h⟩), ?_⟩
      rintro (⟨h, -⟩ | ⟨-, -, h⟩ | ⟨-, r, h, -⟩)
      · exact absurd h hf
      · exact h
      · simp [checkAddress_of_accessible ha] at h
    | error r =>
      have hc := memRead_error_iff.mp hr
      refine ⟨fun h => .inr (.inr ⟨hf', r, hc, ?_⟩), ?_⟩
      · injection h with h; exact h.symm
      · rintro (⟨h, -⟩ | ⟨-, ha, -⟩ | ⟨-, r', h, rfl⟩)
        · exact absurd h hf
        · simp [checkAddress_of_accessible ha] at hc
        · rw [hc] at h; cases h; rfl

end Sys2Proof.Machine
end

