-- ==== Sys2Proof/Laws/PerInstr.lean ====
section
/-! SUPPORT. What is said of every instruction as syntax, one lemma per constructor. `TableMatch`: the word of an
instruction, under the mask of its row of spec/opcode_table.json, is the row's match. -/

namespace Sys2Proof.Laws.TableMatch

/-- The mask and the match of an instruction's row in spec/opcode_table.json. -/
def rowOf : Instr → Word × Word
  | .addReg .. => (0xF020#16, 0x1000#16)
  | .addImm .. => (0xF020#16, 0x1020#16)
  | .andReg .. => (0xF020#16, 0x5000#16)
  | .andImm .. => (0xF020#16, 0x5020#16)
  | .br .. => (0xF000#16, 0x0000#16)
  | .jmp .. => (0xF000#16, 0xC000#16)
  | .jsr .. => (0xF800#16, 0x4800#16)
  | .jsrr .. => (0xF800#16, 0x4000#16)
  | .ld .. => (0xF000#16, 0x2000#16)
  | .ldi .. => (0xF000#16, 0xA000#16)
  | .ldr .. => (0xF000#16, 0x6000#16)
  | .lea .. => (0xF000#16, 0xE000#16)
  | .notReg .. => (0xF000#16, 0x9000#16)
  | .st .. => (0xF000#16, 0x3000#16)
  | .sti .. => (0xF000#16, 0xB000#16)
  | .str .. => (0xF000#16, 0x7000#16)
  | .trap .. => (0xF000#16, 0xF000#16)
  | .rti .. => (0xF000#16, 0x8000#16)
  | .res .. => (0xF000#16, 0xD000#16)

/-- The word of `i` carries the fixed bits of its row. -/
def Statement (i : Instr) : Prop := encode i &&& (rowOf i).1 = (rowOf i).2

theorem addReg (dr sr1 : RegId) (ign : BitVec 2) (sr2 : RegId) : Statement (.addReg dr sr1 ign sr2) := by
  apply BitVec.eq_of_getLsbD_eq
  intro k hk
  interval_cases k <;>
    simp only [encode, rowOf, BitVec.getLsbD_and, BitVec.getLsbD_append] <;> simp

theorem addImm (dr sr1 : RegId) (imm5 : BitVec 5) : Statement (.addImm dr sr1 imm5) := by
  apply BitVec.eq_of_getLsbD_eq
  intro k hk
  interval_cases k <;>
    simp only [encode, rowOf, BitVec.getLsbD_and, BitVec.getLsbD_append] <;> simp

theorem andReg (dr sr1 : RegId) (ign : BitVec 2) (sr2 : RegId) : Statement (.andReg dr sr1 ign sr2) := by
  apply BitVec.eq_of_getLsbD_eq
  intro k hk
  interval_cases k <;>
    simp only [encode, rowOf, BitVec.getLsbD_and, BitVec.getLsbD_append] <;> simp

theorem andImm (dr sr1 : RegId) (imm5 : BitVec 5) : Statement (.andImm dr sr1 imm5) := by
  apply BitVec.eq_of_getLsbD_eq
  intro k hk
  interval_cases k <;>
    simp only [encode, rowOf, BitVec.getLsbD_and, BitVec.getLsbD_append] <;> simp

theorem br (n z p : Bool) (off9 : BitVec 9) : Statement (.br n z p off9) := by
  apply BitVec.eq_of_getLsbD_eq
  intro k hk
  interval_cases k <;>
    simp only [encode, rowOf, BitVec.getLsbD_and, BitVec.getLsbD_append] <;> simp

theorem jmp (ignHi : BitVec 3) (base : RegId) (ignLo : BitVec 6) : Statement (.jmp ignHi base ignLo) := by
  apply BitVec.eq_of_getLsbD_eq
  intro k hk
  interval_cases k <;>
    simp only [encode, rowOf, BitVec.getLsbD_and, BitVec.getLsbD_append] <;> simp

theorem jsr (off11 : BitVec 11) : Statement (.jsr off11) := by
  apply BitVec.eq_of_getLsbD_eq
  intro k hk
  interval_cases k <;>
    simp only [encode, rowOf, BitVec.getLsbD_and, BitVec.getLsbD_append] <;> simp

theorem jsrr (ignHi : BitVec 2) (base : RegId) (ignLo : BitVec 6) : Statement (.jsrr ignHi base ignLo) := by
  apply BitVec.eq_of_getLsbD_eq
  intro k hk
  interval_cases k <;>
    simp only [encode, rowOf, BitVec.getLsbD_and, BitVec.getLsbD_append] <;> simp

theorem ld (dr : RegId) (off9 : BitVec 9) : Statement (.ld dr off9) := by
  apply BitVec.eq_of_getLsbD_eq
  intro k hk
  interval_cases k <;>
    simp only [encode, rowOf, BitVec.getLsbD_and, BitVec.getLsbD_append] <;> simp

theorem ldi (dr : RegId) (off9 : BitVec 9) : Statement (.ldi dr off9) := by
  apply BitVec.eq_of_getLsbD_eq
  intro k hk
  interval_cases k <;>
    simp only [encode, rowOf, BitVec.getLsbD_and, BitVec.getLsbD_append] <;> simp

theorem ldr (dr base : RegId) (off6 : BitVec 6) : Statement (.ldr dr base off6) := by
  apply BitVec.eq_of_getLsbD_eq
  intro k hk
  interval_cases k <;>
    simp only [encode, rowOf, BitVec.getLsbD_and, BitVec.getLsbD_append] <;> simp

theorem lea (dr : RegId) (off9 : BitVec 9) : Statement (.lea dr off9) := by
  apply BitVec.eq_of_getLsbD_eq
  intro k hk
  interval_cases k <;>
    simp only [encode, rowOf, BitVec.getLsbD_and, BitVec.getLsbD_append] <;> simp

theorem notReg (dr sr : RegId) (ign : BitVec 6) : Statement (.notReg dr sr ign) := by
  apply BitVec.eq_of_getLsbD_eq
  intro k hk
  interval_cases k <;>
    simp only [encode, rowOf, BitVec.getLsbD_and, BitVec.getLsbD_append] <;> simp

theorem st (sr : RegId) (off9 : BitVec 9) : Statement (.st sr off9) := by
  apply BitVec.eq_of_getLsbD_eq
  intro k hk
  interval_cases k <;>
    simp only [encode, rowOf, BitVec.getLsbD_and, BitVec.getLsbD_append] <;> simp

theorem sti (sr : RegId) (off9 : BitVec 9) : Statement (.sti sr off9) := by
  apply BitVec.eq_of_getLsbD_eq
  intro k hk
  interval_cases k <;>
    simp only [encode, rowOf, BitVec.getLsbD_and, BitVec.getLsbD_append] <;> simp

theorem str (sr base : RegId) (off6 : BitVec 6) : Statement (.str sr base off6) := by
  apply BitVec.eq_of_getLsbD_eq
  intro k hk
  interval_cases k <;>
    simp only [encode, rowOf, BitVec.getLsbD_and, BitVec.getLsbD_append] <;> simp

theorem trap (ign : BitVec 4) (vect8 : BitVec 8) : Statement (.trap ign vect8) := by
  apply BitVec.eq_of_getLsbD_eq
  intro k hk
  interval_cases k <;>
    simp only [encode, rowOf, BitVec.getLsbD_and, BitVec.getLsbD_append] <;> simp

theorem rti (ign : BitVec 12) : Statement (.rti ign) := by
  apply BitVec.eq_of_getLsbD_eq
  intro k hk
  interval_cases k <;>
    simp only [encode, rowOf, BitVec.getLsbD_and, BitVec.getLsbD_append] <;> simp

theorem res (ign : BitVec 12) : Statement (.res ign) := by
  apply BitVec.eq_of_getLsbD_eq
  intro k hk
  interval_cases k <;>
    simp only [encode, rowOf, BitVec.getLsbD_and, BitVec.getLsbD_append] <;> simp

end Sys2Proof.Laws.TableMatch
end

