-- ==== Sys2Proof/Tests/Slice0.lean ====
section
/-! SUPPORT. Tests of the model against the spec's own words and vectors (spec/95_test_vectors.md; a vector's id stands in
its test's comment), the smoke tests of well-formedness, and one witness for the hypotheses of each claim, at a boundary
where a clause has one. Expected values are the spec's, not the model's. -/

namespace Sys2Proof.Tests

open Machine Claims

/-! ### Helpers: small states, one step -/

/-- Reset, with the instruction `w` at `pc` (the vectors' start state: 0 elsewhere, flags 010). -/
def at' (pc w : Word) : State := (State.reset.setPc pc).withFetchWord 16 w.toNat

/-- The word `v` placed in cell `a`. -/
def cell (a : Nat) (v : Word) (s : State) : State := s.setMem (s.mem.write a v)

/-- The state after one step. -/
def next (s : State) : State :=
  match step s with
  | .next t => t
  | .fault _ => s
  | .refused _ => s

def nzp (s : State) : Bool × Bool × Bool := (s.n, s.z, s.p)

/-- FAULT_CAUSE, FAULT_ADDR and FAULT_IR of a faulted state. -/
def faultOf (s : State) : Option (Nat × Word × Word) :=
  if s.faulted then some (s.faultCause.toNat, s.faultAddr, s.faultIr) else none

/-- Reset with other parameters. -/
def withParams (depth : Nat) (region : List Word) (s : State) : State :=
  { s with params := { clsDepth := depth, clsRegion := region } }

/-! ### Well-formedness: lawful parameters, and an ill-formed term for each check -/

theorem test_config_ok : Config.wf { clsDepth := 2, clsRegion := [0x7000, 0x7FFF] } := by decide
theorem test_config_depth_zero : ¬ Config.depthPositive { clsDepth := 0, clsRegion := [] } := by decide
theorem test_config_region_outside :
    ¬ Config.regionInMemory { clsDepth := 1, clsRegion := [0x7FFF, 0x8000] } := by decide
theorem test_config_region_twice :
    ¬ Config.regionRising { clsDepth := 1, clsRegion := [0x7000, 0x7000] } := by decide
theorem test_config_depth_over_region :
    ¬ Config.depthFitsRegion { clsDepth := 3, clsRegion := [0x7000, 0x7001] } := by decide
theorem test_config_bad_refused : ¬ Config.wf { clsDepth := 3, clsRegion := [0x7000, 0x7001] } := by decide
/-- No instruction is ill formed (R68): the one with every operand bit set is well formed. -/
theorem test_instr_wf : (Instr.trap 0xF#4 0xFF#8).wf = true := by decide
theorem test_memory_unsorted : ¬ Memory.wf [(5, 1#16), (4, 1#16)] := by decide
theorem test_memory_listed_zero : ¬ Memory.wf [(5, 0#16)] := by decide
theorem test_memory_outside : ¬ Memory.wf [(0x8000, 1#16)] := by decide
theorem test_memory_write_reset_value : Memory.write (Memory.write [] 5 7) 5 0 = [] := by decide

/-! ### Decoding: one word per constructor, written out bit by bit from the encodings of 30_encoding.md -/

-- A1 ADD R2,R0,R1 is 0001 010 000 0 00 001
theorem test_decode_addReg : decodeWord 0b0001010000000001#16 = .addReg 2 0 0 1 := by decide
-- A5 ADD R3,R3,#-16 is 0001 011 011 1 10000
theorem test_decode_addImm : decodeWord 0b0001011011110000#16 = .addImm 3 3 0b10000 := by decide
-- N5 AND R2,R0,R1 is 0101 010 000 0 00 001
theorem test_decode_andReg : decodeWord 0b0101010000000001#16 = .andReg 2 0 0 1 := by decide
-- N1 AND R1,R0,#-1 is 0101 001 000 1 11111
theorem test_decode_andImm : decodeWord 0b0101001000111111#16 = .andImm 1 0 0b11111 := by decide
-- S7 BRn +3 is 0000 1 0 0 000000011
theorem test_decode_br : decodeWord 0b0000100000000011#16 = .br true false false 3 := by decide
-- J2 JMP R7 is 1100 000 111 000000
theorem test_decode_jmp : decodeWord 0b1100000111000000#16 = .jmp 0 7 0 := by decide
-- S4v JSR #-1024 is 0100 1 10000000000
theorem test_decode_jsr : decodeWord 0b0100110000000000#16 = .jsr 0b10000000000 := by decide
-- S6v JSRR R2 is 0100 0 00 010 000000
theorem test_decode_jsrr : decodeWord 0b0100000010000000#16 = .jsrr 0 2 0 := by decide
-- L1 LD R1,#5 is 0010 001 000000101
theorem test_decode_ld : decodeWord 0b0010001000000101#16 = .ld 1 5 := by decide
-- L9 LDI R3,#4 is 1010 011 000000100
theorem test_decode_ldi : decodeWord 0b1010011000000100#16 = .ldi 3 4 := by decide
-- L6 LDR R2,R1,#1 is 0110 010 001 000001
theorem test_decode_ldr : decodeWord 0b0110010001000001#16 = .ldr 2 1 1 := by decide
-- E1 LEA R1,#7 is 1110 001 000000111
theorem test_decode_lea : decodeWord 0b1110001000000111#16 = .lea 1 7 := by decide
-- T1 NOT R0,R1 is 1001 000 001 111111
theorem test_decode_notReg : decodeWord 0b1001000001111111#16 = .notReg 0 1 0b111111 := by decide
-- W1 ST R0,#2 is 0011 000 000000010
theorem test_decode_st : decodeWord 0b0011000000000010#16 = .st 0 2 := by decide
-- W4 STI R2,#4 is 1011 010 000000100
theorem test_decode_sti : decodeWord 0b1011010000000100#16 = .sti 2 4 := by decide
-- W8 STR R2,R1,#-1 is 0111 010 001 111111 (0x747F)
theorem test_decode_str : decodeWord 0b0111010001111111#16 = .str 2 1 0b111111 := by decide
-- X1 TRAP x25 is 1111 0000 00100101
theorem test_decode_trap : decodeWord 0b1111000000100101#16 = .trap 0 0x25 := by decide
-- X6 RTI with the low bits set is 1000 111111111111
theorem test_decode_rti : decodeWord 0b1000111111111111#16 = .rti 0xFFF := by decide
-- X5 opcode 1101 is 1101 000100100011
theorem test_decode_res : decodeWord 0b1101000100100011#16 = .res 0x123 := by decide

theorem test_decode_no_word : decode [] = .error .noWord := by decide
theorem test_decodeTableWord : decodeTableWord 16 0xC1C0 = some (.jmp 0 7 0) := by decide
theorem test_decodeTableWord_too_wide : decodeTableWord 32 0xC1C0 = none := by decide
/-- The encoder writes the spec's word (S8: JSR #3 is 0x4803). -/
theorem test_encode_jsr : encode (.jsr 3) = 0x4803#16 := by decide

/-! ### One step, at most two per instruction -/

-- A2: signed overflow is not flagged
theorem test_addImm_overflow :
    let t := next ((at' 0x3000 0x1261).setReg 1 0x7FFF)
    t.reg 1 = 0x8000 ∧ nzp t = (true, false, false) ∧ t.pc = 0x3001 ∧ t.cycles = 1 := by decide
-- A6: imm5 = 01111 adds +15
theorem test_addImm_positive : (next (at' 0x3000 0x16EF)).reg 3 = 0x000F := by decide
-- A10: DR = SR1 = SR2, the old value is used twice
theorem test_addReg_same :
    let t := next ((at' 0x3000 0x1482).setReg 2 0x4000)
    t.reg 2 = 0x8000 ∧ nzp t = (true, false, false) := by decide
-- A9: IR[4:3] = 11 is ignored
theorem test_addReg_ignored :
    (next (((at' 0x3000 0x1419).setReg 0 2).setReg 1 3)).reg 2 = 5 := by decide
-- N3: a negative imm5 keeps the high bits
theorem test_andImm_mask : (next ((at' 0x3000 0x5230).setReg 0 0xABCD)).reg 1 = 0xABC0 := by decide
-- N5
theorem test_andReg :
    let t := next (((at' 0x3000 0x5401).setReg 0 0xF0F0).setReg 1 0xFF00)
    t.reg 2 = 0xF000 ∧ nzp t = (true, false, false) := by decide
-- T2, T3
theorem test_not_to_zero :
    let t := next ((at' 0x3000 0x903F).setReg 0 0xFFFF)
    t.reg 0 = 0 ∧ nzp t = (false, true, false) := by decide
theorem test_not_to_positive :
    let t := next ((at' 0x3000 0x903F).setReg 0 0x8000)
    t.reg 0 = 0x7FFF ∧ nzp t = (false, false, true) := by decide
-- S6 and S7: BRz is not taken and BRn is, with N set
theorem test_brz_not_taken : (next ((at' 0x3000 0x0403).setFlags true false false)).pc = 0x3001 := by decide
-- B7: the target wraps
theorem test_br_wraps : (next (at' 0x0001 0x0FFD)).pc = 0xFFFF := by decide
-- J6: the pop gives R7 and pc, the flags stay
theorem test_ret_pops :
    let t := next ((((at' 0x3000 0xC1C0).setReg 7 0x5555).setCls [0x2000, 0x3001]).setFlags true false false)
    t.reg 7 = 0x3001 ∧ t.pc = 0x3001 ∧ t.cls = [0x2000] ∧ nzp t = (true, false, false) := by decide
-- J4: another base register keeps the stack
theorem test_jmp_keeps_stack :
    let t := next (((at' 0x3000 0xC0C0).setReg 3 0x4000).setCls [0x3001])
    t.pc = 0x4000 ∧ t.cls = [0x3001] := by decide
-- S4v
theorem test_jsr_far_back :
    let t := next (at' 0x3000 0x4C00)
    t.reg 7 = 0x3001 ∧ t.cls = [0x3001] ∧ t.pc = 0x2C01 := by decide
-- S5v: overflow commits nothing
theorem test_jsr_overflow :
    let t := next ((withParams 2 [] ((at' 0x3000 0x4803).setReg 7 0x1111)).setCls [0x10, 0x20])
    faultOf t = some (4, 0x3001, 0x4803) ∧ t.pc = 0x3000 ∧ t.reg 7 = 0x1111 ∧ t.cls = [0x10, 0x20] ∧
      t.cycles = 0 := by decide
-- S7v: JSRR R7 goes on to the next instruction
theorem test_jsrr_r7 :
    let t := next ((at' 0x3000 0x41C0).setReg 7 0x1234)
    t.pc = 0x3001 ∧ t.reg 7 = 0x3001 ∧ t.cls = [0x3001] := by decide
-- S6v
theorem test_jsrr_r2 : (next ((at' 0x3000 0x4080).setReg 2 0x5000)).pc = 0x5000 := by decide
-- L3 and L4: 0x7FFF is read, 0x8000 faults
theorem test_ld_top :
    let t := next (cell 0x7FFF 0x8000 (at' 0x7FFE 0x2000))
    t.reg 0 = 0x8000 ∧ nzp t = (true, false, false) ∧ t.pc = 0x7FFF := by decide
theorem test_ld_fault :
    let t := next ((at' 0x7FFF 0x2000).setReg 0 0x1111)
    faultOf t = some (2, 0x8000, 0x2000) ∧ t.pc = 0x7FFF ∧ t.reg 0 = 0x1111 ∧ t.cycles = 0 := by decide
-- L9 and L14
theorem test_ldi :
    (next (cell 0x3008 5 (cell 0x300A 0x3008 (at' 0x3005 0xA604)))).reg 3 = 5 := by decide
theorem test_ldi_region :
    faultOf (next (withParams 1 [0x7000] (cell 0x3001 0x7000 (at' 0x3000 0xA600)))) =
      some (5, 0x7000, 0xA600) := by decide
-- L8: DR = BaseR uses the old base; L7: the address wraps
theorem test_ldr_same :
    (next (cell 0x3008 5 ((at' 0x3000 0x6240).setReg 1 0x3008))).reg 1 = 5 := by decide
theorem test_ldr_wraps :
    (next (cell 0 0x42 ((at' 0x3000 0x6441).setReg 1 0xFFFF))).reg 2 = 0x42 := by decide
-- E2: LEA never faults and leaves the flags
theorem test_lea_top :
    let t := next ((at' 0x7FFF 0xE000).setFlags false false true)
    t.reg 0 = 0x8000 ∧ nzp t = (false, false, true) ∧ t.faulted = false ∧ t.pc = 0x8000 := by decide
-- W2 and W10
theorem test_st_zero : (next (cell 0x3001 0xBEEF (at' 0x3000 0x3000))).mem = [(0x3000, 0x3000)] := by decide
theorem test_st_region :
    let t := next (withParams 1 [0x3001] ((at' 0x3000 0x3000).setReg 0 0xA))
    faultOf t = some (5, 0x3001, 0x3000) ∧ t.mem.read 0x3001 = 0 := by decide
-- W11 and W5
theorem test_sti_own_cell :
    (next (cell 0x3001 0x3001 ((at' 0x3000 0xB400).setReg 2 0xFFFB))).mem.read 0x3001 = 0xFFFB := by decide
theorem test_sti_fault :
    let t := next (cell 0x3001 0x8000 ((at' 0x3000 0xB400).setReg 2 0xFFFB))
    faultOf t = some (3, 0x8000, 0xB400) ∧ t.mem.read 0x3001 = 0x8000 := by decide
-- W9 and W8
theorem test_str_base : (next ((at' 0x3000 0x7241).setReg 1 0x3008)).mem.read 0x3009 = 0x3008 := by decide
theorem test_str_fault :
    faultOf (next ((at' 0x3000 0x747F).setReg 2 0xFFFB)) = some (3, 0xFFFF, 0x747F) := by decide
-- X1: R7, flags and stack stay
theorem test_trap :
    let t := next ((((at' 0x3006 0xF025).setReg 7 0x1234).setFlags true false false).setCls [0x10])
    t.pc = 0 ∧ t.reg 7 = 0x1234 ∧ nzp t = (true, false, false) ∧ t.cls = [0x10] := by decide
-- X4 and X5
theorem test_rti :
    let t := next ((at' 0x3000 0x8000).setFlags true false false)
    t.pc = 0x3001 ∧ nzp t = (true, false, false) ∧ t.cycles = 1 := by decide
theorem test_reserved :
    let t := next (at' 0x4000 0xD123)
    t.pc = 0x4001 ∧ t.faulted = false ∧ t.cycles = 1 := by decide
-- F1, F3: fetch faults keep pc (FAULT_IR is free, so nothing is said of it)
theorem test_fetch_range :
    let t := next (State.reset.setPc 0x8000)
    t.faulted = true ∧ t.faultCause = 1 ∧ t.faultAddr = 0x8000 ∧ t.pc = 0x8000 ∧ t.cycles = 0 := by decide
theorem test_fetch_region :
    let t := next (withParams 1 [0x3000] (State.reset.setPc 0x3000))
    t.faulted = true ∧ t.faultCause = 5 ∧ t.faultAddr = 0x3000 := by decide
-- L4b: a faulted block does not move
theorem test_faulted_stays :
    (next (next (at' 0x7FFF 0x2000))) = next (at' 0x7FFF 0x2000) := by decide

/-! ### Loading, the run-loop, inspection -/

def pcAfter (images : List (List Nat)) : Except LoadRefusal Word :=
  match loadImages (images.map .tokens) State.reset with
  | .ok s => .ok s.pc
  | .error e => .error e

-- R1 to R5 and R7 of section 2.7 of the vectors
theorem test_load_first : pcAfter [[0x3000, 1], [0x4000, 1]] = .ok 0x3000 := by decide
theorem test_load_origin_zero : pcAfter [[0, 1], [0x4000, 1]] = .ok 0x4000 := by decide
theorem test_load_too_big : pcAfter [[0x7FFE, 1, 2, 3]] = .error .doesNotFit := by decide
theorem test_load_token : pcAfter [[0x3000, 0x10000]] = .error .tokenTooLarge := by decide
-- R6: the later image overwrites
theorem test_load_overwrites :
    loadImages [.tokens [0x3000, 0x1111, 0x2222], .tokens [0x3001, 0x1234]] State.reset =
      .ok ((State.reset.setMem [(0x3000, 0x1111), (0x3001, 0x1234)]).setPc 0x3000) := by decide
-- H1: the run-loop takes no step at pc = 0
theorem test_run_halted_at_once : runLoop 3 (at' 0 0xF025) = .next (.halted, at' 0 0xF025) := by rfl
theorem test_inspect_memory : inspectMemory 0x7FFF 0x7FFF (cell 0x7FFF 9 State.reset) = some [9] := by decide
theorem test_inspect_outside : inspectMemory 0x7FFF 0x8000 State.reset = none := by decide

/-! ### Witnesses: the hypotheses of the claims can be met, each clause at a boundary where it has one -/

/-- A state one call below its capacity of 4, and one at it. -/
def threeCalls : State := State.reset.setCls [1, 2, 3]
def fourCalls : State := State.reset.setCls [1, 2, 3, 4]
/-- A state with 0x7FFF reserved. -/
def regionTop : State := withParams 1 [0x7FFF] State.reset

theorem witness_DecodeOfEncodeIsTheInstruction : (Instr.jsrr 0b11#2 7#3 0b111111#6).wf = true := by decide
theorem witness_SetCCWritesTheSignClass :
    (0#16 = 0#16) ∧ (0x7FFF#16 ≠ 0#16 ∧ (0x7FFF#16).getLsbD 15 = false) ∧
      (0x8000#16).getLsbD 15 = true := by decide
theorem witness_BranchTakenByTheTestedFlags : (State.reset.setFlags true false false).oneHot := by decide
theorem witness_BranchTableUnderOneHotFlags : (State.reset.setFlags false false true).oneHot := by decide
theorem witness_JumpAndReturn :
    (6#3 ≠ 7#3) ∧ State.reset.cls = [] ∧ (7#3 = 7#3 ∧ threeCalls.cls = [1, 2] ++ [3]) := by decide
theorem witness_JsrLinksPushesAndBranches :
    threeCalls.cls.length ≠ threeCalls.params.clsDepth ∧
      fourCalls.cls.length = fourCalls.params.clsDepth := by decide
theorem witness_JsrrReadsBaseAfterTheLink :
    threeCalls.cls.length ≠ threeCalls.params.clsDepth ∧
      fourCalls.cls.length = fourCalls.params.clsDepth := by decide
theorem witness_LdLoadsOrFaults :
    accessFault State.reset 2 (pcRel (State.reset.setPc 0x7FFE) 0) = none ∧
      accessFault State.reset 2 (pcRel (State.reset.setPc 0x7FFF) 0) = some 2 ∧
      accessFault regionTop 2 (pcRel (regionTop.setPc 0x7FFE) 0) = some 5 := by decide
theorem witness_LdiLoadsThroughThePointerOrFaults :
    let ok := cell 1 0x7FFF State.reset
    let far := cell 1 0x8000 State.reset
    (accessFault ok 2 (pcRel ok 0) = none ∧ accessFault ok 2 (ok.mem.read (pcRel ok 0).toNat) = none) ∧
      accessFault (ok.setPc 0x7FFF) 2 (pcRel (ok.setPc 0x7FFF) 0) = some 2 ∧
      (accessFault far 2 (pcRel far 0) = none ∧
        accessFault far 2 (far.mem.read (pcRel far 0).toNat) = some 2) := by decide
theorem witness_LdrLoadsOrFaults :
    let s := State.reset.setReg 1 0x7FFF
    accessFault s 2 (baseRel s 1 0) = none ∧ accessFault s 2 (baseRel s 1 1) = some 2 := by decide
theorem witness_StStoresOrFaults :
    accessFault State.reset 3 (pcRel (State.reset.setPc 0x7FFE) 0) = none ∧
      accessFault State.reset 3 (pcRel (State.reset.setPc 0x7FFF) 0) = some 3 ∧
      accessFault regionTop 3 (pcRel (regionTop.setPc 0x7FFE) 0) = some 5 := by decide
theorem witness_StiStoresThroughThePointerOrFaults :
    let ok := cell 1 0x7FFF State.reset
    let far := cell 1 0x8000 State.reset
    (accessFault ok 2 (pcRel ok 0) = none ∧ accessFault ok 3 (ok.mem.read (pcRel ok 0).toNat) = none) ∧
      accessFault (ok.setPc 0x7FFF) 2 (pcRel (ok.setPc 0x7FFF) 0) = some 2 ∧
      (accessFault far 2 (pcRel far 0) = none ∧
        accessFault far 3 (far.mem.read (pcRel far 0).toNat) = some 3) := by decide
theorem witness_StrStoresOrFaults :
    let s := State.reset.setReg 1 0x7FFF
    accessFault s 3 (baseRel s 1 0) = none ∧ accessFault s 3 (baseRel s 1 1) = some 3 := by decide
theorem witness_MemoryPrimitivesCheckThenAccess :
    State.reset.mem.wf ∧ accessFault State.reset AccessKind.fetch.rangeCause.code 0x7FFF = none ∧
      accessFault State.reset AccessKind.load.rangeCause.code 0x8000 = some 2 ∧
      accessFault State.reset 3 0x7FFF = none ∧ accessFault State.reset 3 0x8000 = some 3 ∧
      accessFault regionTop 3 0x7FFF = some 5 := by decide
theorem witness_StackControllerPushAndPop :
    fourCalls.cls.length = fourCalls.params.clsDepth ∧
      threeCalls.cls.length ≠ threeCalls.params.clsDepth ∧ State.reset.cls = [] := by decide
theorem witness_StoredWordReadsBack :
    State.reset.mem.wf ∧
    (accessFault (State.reset.setPc 0x7FFE) 3 (pcRel (State.reset.setPc 0x7FFE) 0) = none ∧
      ∃ t, exec (.st 0 0) (State.reset.setPc 0x7FFE) = .next t) ∧
    (accessFault State.reset 2 (pcRel State.reset 0) = none ∧
      accessFault State.reset 3 (State.reset.mem.read (pcRel State.reset 0).toNat) = none ∧
      ∃ t, exec (.sti 0 0) State.reset = .next t) ∧
    (accessFault State.reset 3 (baseRel State.reset 0 0) = none ∧
      ∃ t, exec (.str 0 0 0) State.reset = .next t) :=
  ⟨by decide, ⟨by decide, _, rfl⟩, ⟨by decide, by decide, _, rfl⟩, by decide, _, rfl⟩
theorem witness_StoredWordIsFetchedNext :
    let s := State.reset.setPc 0x7FFE
    s.mem.wf ∧ s.faulted = false ∧ accessFault s 3 (s.pc + 1#16) = none := by decide
theorem witness_RegisterFrame :
    ∃ t, exec (.addImm 1 0 5) State.reset = .next t ∧ 2#3 ∉ mayWrite State.reset (.addImm 1 0 5) :=
  ⟨_, rfl, by decide⟩
theorem witness_OnlySixInstructionsWriteTheFlags :
    (∃ t, exec (.lea 1 0) State.reset = .next t ∧ ccDest (.lea 1 0) = none) ∧
    (∃ t, exec (.ld 1 0) (State.reset.setPc 0x7FFF) = .next t ∧ t.cycles = State.reset.cycles) ∧
    (∃ t, exec (.ld 1 0) State.reset = .next t ∧ ccDest (.ld 1 0) = some 1 ∧
      t.cycles ≠ State.reset.cycles) :=
  ⟨⟨_, rfl, rfl⟩, ⟨_, rfl, rfl⟩, _, rfl, rfl, by decide⟩
theorem witness_MemoryFrame :
    ∃ t, exec (.st 0 0) State.reset = .next t ∧
      ∀ a, storesTo State.reset (.st 0 0) = some a → 2 ≠ a.toNat :=
  ⟨_, rfl, by intro a h; cases h; decide⟩
theorem witness_StackFrame : ∃ t, exec (.jsr 0) fourCalls = .next t := ⟨_, rfl⟩
theorem witness_FaultedStepChangesNothing : (next (State.reset.setPc 0x8000)).faulted = true := by decide
theorem witness_StepRunsTheDecodedInstruction :
    let s := at' 0x7FFF 0xF025
    s.faulted = false ∧ accessFault s 1 s.pc = none ∧
      decode [s.mem.read s.pc.toNat] = .ok (.trap 0 0x25, []) ∧ (Instr.trap 0 0x25).wf = true := by decide
theorem witness_FetchFaultKeepsThePc :
    (State.reset.faulted = false ∧ 0x8000 ≤ (State.reset.setPc 0x8000).pc.toNat) ∧
      (regionTop.faulted = false ∧ (regionTop.setPc 0x7FFF).pc.toNat < 0x8000 ∧
        (regionTop.setPc 0x7FFF).pc ∈ regionTop.params.clsRegion) := by decide
theorem witness_EveryStepCommitsOrFaults :
    (next (State.reset.setPc 0x8000)).faulted = true ∧ State.reset.faulted = false := by decide
/-- A step that faults, for each of the five causes. -/
theorem witness_FaultRecordFollowsTheCauseTable :
    let code s := if s.faulted = false then some (next s).faultCause else none
    code (State.reset.setPc 0x8000) = some 1 ∧ code (at' 0x7FFF 0x2000) = some 2 ∧
      code (at' 0x7FFF 0x3000) = some 3 ∧ code ((at' 0x3000 0x4803).setCls [1, 2, 3, 4]) = some 4 ∧
      code (regionTop.setPc 0x7FFF) = some 5 := by decide
theorem witness_ResetMeetsTheInvariant :
    Config.wf { clsDepth := 2, clsRegion := [0x7000, 0x7001] } ∧ Memory.wf [(0, 1#16), (0x7FFF, 2#16)] := by
  decide
theorem witness_StepKeepsTheInvariant :
    State.reset.Inv ∧ ∃ t, step (at' 0x7FFF 0x3000) = .next t ∧ (at' 0x7FFF 0x3000).Inv :=
  ⟨by decide, _, rfl, by decide⟩
theorem witness_ExecKeepsFlagsOneHot :
    State.reset.oneHot ∧ ∃ t, exec (.notReg 0 0 0) State.reset = .next t := ⟨by decide, _, rfl⟩
theorem witness_LaunchMeetsTheInvariant :
    Config.initial.wf ∧ Memory.wf [] ∧
      ∃ s, launch Config.initial (Vector.replicate 8 0) [] [.tokens [0x7FFF, 0xF025]] = .ok s :=
  ⟨by decide, by decide, _, rfl⟩
theorem witness_RunLoopKeepsTheInvariant :
    (at' 0x3000 0xF025).Inv ∧ ∃ t, runLoop 2 (at' 0x3000 0xF025) = .next (.halted, t) :=
  ⟨by decide, _, rfl⟩
theorem witness_OnlyBranchReadsTheFlags : isBranch (.ld 0 0) = false := by decide
theorem witness_StackIsHiddenFromOtherInstructions :
    pushes (.jmp 0 6 0) = false ∧ popsLink (.jmp 0 6 0) = false := by decide
theorem witness_CallReturnRoundTrip :
    threeCalls.cls.length ≠ threeCalls.params.clsDepth ∧
      ∃ t, exec (.jsr 3) threeCalls = .next t ∧ (t.setReg 7 0).cls = t.cls := ⟨by decide, _, rfl, rfl⟩
theorem witness_LoadPlacesTheImage :
    State.reset.mem.wf ∧ 0x7FFE < 0x8000 ∧ 0x7FFE + [1, 0xFFFF].length ≤ 0x8000 ∧
      ∀ w ∈ [1, 0xFFFF], w ≤ 0xFFFF := by decide
theorem witness_LaunchEntryState :
    ∃ s, launch Config.initial (Vector.replicate 8 0) [] [.tokens [0, 1], .tokens [0x4000, 2]] = .ok s ∧
      s.pc = 0x4000 := ⟨_, rfl, rfl⟩
/-- Each of the three ends is reached. -/
theorem witness_RunEndsHaltedFaultedOrOutOfBudget :
    (∃ t, runLoop 1 (at' 0x3000 0xF025) = .next (.halted, t)) ∧
      (∃ t, runLoop 1 (at' 0x7FFF 0x2000) = .next (.faulted, t)) ∧
      ∃ t, runLoop 1 (at' 0x3000 0x8000) = .next (.unfinished, t) := ⟨⟨_, rfl⟩, ⟨_, rfl⟩, _, rfl⟩
theorem witness_InspectShowsTheStateButNotTheStack : 0x7FFF ≤ 0x7FFF ∧ 0x7FFF < 0x8000 := by decide

end Sys2Proof.Tests
end

section
/-! Proofs about the condition flags (spec/10_state.md R27, R28): what `SetCC` leaves in N, Z and P, and which
instructions reach it. -/

namespace Sys2Proof.Proofs.Flags

open Machine Claims

/-! ### `SetCC` (R27) -/

/-- Settles O7: each case is `setCC_eq` with the two tests it makes, zero and bit 15, decided. -/
theorem setCCWritesTheSignClass : Obligations.SetCCWritesTheSignClass := by
  intro v s
  refine ⟨fun hzero => ?_, fun hne hpos => ?_, fun hneg => ?_⟩
  · rw [setCC_eq, hzero]; rfl
  · rw [setCC_eq, hpos, bne, beq_false_of_ne hne]; rfl
  · have hne : v ≠ 0#16 := by rintro rfl; simp at hneg
    rw [setCC_eq, hneg, beq_false_of_ne hne]; rfl

/-! ### The handlers that make two accesses or push: what it takes for them to commit -/

theorem handlerOf_ldi_ok_iff {dr : RegId} {off9 : BitVec 9} {s u : State} :
    handlerOf (.ldi dr off9) s = .ok u ↔ ∃ a, indirect s off9 = .ok a ∧ loadInto dr a s = .ok u := by
  cases hx : indirect s off9 <;> simp [handlerOf, hx]

theorem handlerOf_sti_ok_iff {sr : RegId} {off9 : BitVec 9} {s u : State} :
    handlerOf (.sti sr off9) s = .ok u ↔ ∃ a, indirect s off9 = .ok a ∧ memWrite s a (s.reg sr) = .ok u := by
  cases hx : indirect s off9 <;> simp [handlerOf, hx]

theorem handlerOf_jsr_ok_iff {off11 : BitVec 11} {s u : State} :
    handlerOf (.jsr off11) s = .ok u ↔ ∃ w, linkCall s = .ok w ∧ u = w.setPc (pcRelative11 w off11) := by
  cases hx : linkCall s <;> simp [handlerOf, hx, eq_comm]

theorem handlerOf_jsrr_ok_iff {ignHi : BitVec 2} {base : RegId} {ignLo : BitVec 6} {s u : State} :
    handlerOf (.jsrr ignHi base ignLo) s = .ok u ↔ ∃ w, linkCall s = .ok w ∧ u = w.setPc (w.reg base) := by
  cases hx : linkCall s <;> simp [handlerOf, hx, eq_comm]

/-! ### Operations that keep the flags -/

theorem memWrite_ok_flags {s u : State} {a v : Word} (h : memWrite s a v = .ok u) :
    (u.n, u.z, u.p) = (s.n, s.z, s.p) := by
  obtain ⟨-, rfl⟩ := memWrite_ok_iff.mp h
  rfl

theorem linkCall_ok_flags {s u : State} (h : linkCall s = .ok u) :
    (u.n, u.z, u.p) = (s.n, s.z, s.p) := by
  obtain ⟨-, rfl⟩ := linkCall_ok_iff.mp h
  rfl

theorem popIntoLink_flags (base : RegId) (s : State) :
    ((popIntoLink base s).n, (popIntoLink base s).z, (popIntoLink base s).p) = (s.n, s.z, s.p) := by
  rcases popIntoLink_cases base s with ⟨-, h⟩ | ⟨-, -, h⟩ | ⟨-, rest, v, -, h⟩ <;> simp [h]

/-! ### Which handlers write the flags (R28) -/

/-- A handler of one of the six that commits ends in `writeResult` on DR and does nothing else. -/
theorem handlerOf_ok_of_ccDest_some {i : Instr} {dr : RegId} {s u : State} (hd : ccDest i = some dr)
    (h : handlerOf i s = .ok u) : ∃ v, u = writeResult dr v s := by
  have of_load {a : Word} (hl : loadInto dr a s = .ok u) : ∃ v, u = writeResult dr v s :=
    ⟨_, (loadInto_ok_iff.mp hl).2⟩
  cases i with
  | addReg | addImm | andReg | andImm | notReg => cases hd; cases h; exact ⟨_, rfl⟩
  | ld | ldr => cases hd; exact of_load h
  | ldi =>
    cases hd
    obtain ⟨a, -, hl⟩ := handlerOf_ldi_ok_iff.mp h
    exact of_load hl
  | br | jmp | jsr | jsrr | lea | st | sti | str | trap | rti | res => cases hd

/-- A handler of any other instruction that commits keeps the flags. -/
theorem handlerOf_ok_flags_of_ccDest_none {i : Instr} {s u : State} (hd : ccDest i = none)
    (h : handlerOf i s = .ok u) : (u.n, u.z, u.p) = (s.n, s.z, s.p) := by
  cases i with
  | addReg | addImm | andReg | andImm | notReg | ld | ldi | ldr => cases hd
  | lea | trap | rti | res => cases h; rfl
  | br => cases h; split <;> rfl
  | jmp _ base => cases h; exact popIntoLink_flags base s
  | jsr =>
    obtain ⟨w, hw, rfl⟩ := handlerOf_jsr_ok_iff.mp h
    simpa using linkCall_ok_flags hw
  | jsrr =>
    obtain ⟨w, hw, rfl⟩ := handlerOf_jsrr_ok_iff.mp h
    simpa using linkCall_ok_flags hw
  | st | str => exact memWrite_ok_flags h
  | sti =>
    obtain ⟨a, -, hw⟩ := handlerOf_sti_ok_iff.mp h
    exact memWrite_ok_flags hw

/-- Settles O31: `exec` commits what the handler left or enters the fault (R114); the fault keeps flags and CYCLES,
and a commit counts a cycle, its flags being those of `writeResult` or, without a DR to class, the old ones. -/
theorem onlySixInstructionsWriteTheFlags : Obligations.OnlySixInstructionsWriteTheFlags := by
  intro i s t h
  rcases exec_next_iff.mp h with ⟨u, hu, rfl⟩ | ⟨r, -, rfl⟩
  case inr => exact ⟨fun _ => rfl, fun _ => rfl, fun _ _ hc => absurd rfl hc⟩
  cases hd : ccDest i with
  | none =>
    have hflags := handlerOf_ok_flags_of_ccDest_none hd hu
    exact ⟨fun _ => hflags, fun _ => hflags, nofun⟩
  | some dr =>
    obtain ⟨v, rfl⟩ := handlerOf_ok_of_ccDest_some hd hu
    refine ⟨nofun, fun hc => ?_, fun dr' hdr _ => ?_⟩
    · simp [writeResult_eq] at hc
    · cases hdr; simp [writeResult_eq]

end Sys2Proof.Proofs.Flags
end

section
/-! Proofs about the two opcodes with no handler (spec/40_dispatch.md R81, R82), and how an opcode followed by its twelve
operand bits is read back (spec/30_encoding.md R60). -/

namespace Sys2Proof.Proofs.Dispatch

open Machine Claims

/-! ### A word written as its opcode and the twelve bits below it (R60) -/

section
variable (op : BitVec 4) (x : BitVec 12)

theorem bitOf_opcode_append (k : Nat) : bitOf (op ++ x) (12 + k) = op.getLsbD k :=
  BitVec.getLsbD_append.trans (by simp)

theorem fieldOf_opcode_append : fieldOf (op ++ x) 0 12 = x :=
  fieldOf_eq_of_bits fun k hk => BitVec.getLsbD_append.trans (by simp [hk])

end

/-! ### A handler that does not raise commits (R73) -/

/-- The commit of a state that differs from `s` in `pc` only is the claims' `done`. -/
theorem commit_setPc_eq_done (s : State) (target : Word) : (s.setPc target).commit = done s target := rfl

theorem exec_of_handlerOf_ok {i : Instr} {s u : State}
    (h : handlerOf i (s.setPc (s.pc + 1#16)) = .ok u) : exec i s = .next u.commit := by
  rw [exec_eq_runHandler, runHandler_of_ok h]

/-- An instruction whose handler keeps the state it is given only moves `pc` on and counts the cycle. -/
theorem exec_of_handlerOf_id {i : Instr} (h : ∀ t, handlerOf i t = .ok t) (s : State) :
    exec i s = .next (done s (s.pc + 1#16)) := by
  rw [exec_of_handlerOf_ok (h _), commit_setPc_eq_done]

/-! ### The two opcodes -/

theorem decodeWord_1000_append (x : BitVec 12) : decodeWord (0b1000#4 ++ x) = .rti x := by
  have hbit := bitOf_opcode_append 0b1000#4 x
  rw [decodeWord_1000 (hbit 3) (hbit 2) (hbit 1) (hbit 0), fieldOf_opcode_append]

theorem decodeWord_1101_append (x : BitVec 12) : decodeWord (0b1101#4 ++ x) = .res x := by
  have hbit := bitOf_opcode_append 0b1101#4 x
  rw [decodeWord_1101 (hbit 3) (hbit 2) (hbit 1) (hbit 0), fieldOf_opcode_append]

/-- Settles O17: the word decodes by its four opcode bits, and the handler of RTI keeps the state it is given. -/
theorem rtiOnlyAdvances : Obligations.RtiOnlyAdvances :=
  fun x s => ⟨decodeWord_1000_append x, exec_of_handlerOf_id (fun _ => rfl) s⟩

/-- Settles O18: the word decodes by its four opcode bits, and the reserved opcode's handler keeps the state it is
given. -/
theorem reservedOnlyAdvances : Obligations.ReservedOnlyAdvances :=
  fun x s => ⟨decodeWord_1101_append x, exec_of_handlerOf_id (fun _ => rfl) s⟩

end Sys2Proof.Proofs.Dispatch
end

section
/-! Proofs about ADD and AND (spec/41_operate.md R85, R86): how a word of the operate format is read back
(spec/30_encoding.md R61), the sign-extended operand (spec/00_scope.md R11), and the handlers that end in a result. -/

namespace Sys2Proof.Proofs.Operate

open Machine Claims Dispatch

/-! ### The operate format: opcode, DR, SR1, the mode bit and the five bits of operand 2 (R61) -/

section
variable (op : BitVec 4) (dr sr1 : RegId) (mode : BitVec 1) (low : BitVec 5)

/-- Which field each bit of the word belongs to. -/
theorem getLsbD_operate (k : Nat) :
    BitVec.getLsbD (w := 16) (op ++ dr ++ sr1 ++ mode ++ low) k =
      if k < 5 then low.getLsbD k
      else if k < 6 then mode.getLsbD (k - 5)
      else if k < 9 then sr1.getLsbD (k - 6)
      else if k < 12 then dr.getLsbD (k - 9)
      else op.getLsbD (k - 12) := by
  change BitVec.getLsbD (w := 4 + 3 + 3 + 1 + 5) _ k = _
  simp only [BitVec.getLsbD_append, Nat.sub_sub]
  grind

theorem bitOf_operate_opcode (k : Nat) :
    bitOf (op ++ dr ++ sr1 ++ mode ++ low) (12 + k) = op.getLsbD k := by
  rw [bitOf, getLsbD_operate]; grind

@[simp] theorem bitOf_operate_mode : bitOf (op ++ dr ++ sr1 ++ mode ++ low) 5 = mode.getLsbD 0 :=
  getLsbD_operate op dr sr1 mode low 5

@[simp] theorem fieldOf_operate_dr : fieldOf (op ++ dr ++ sr1 ++ mode ++ low) 9 3 = dr :=
  fieldOf_eq_of_bits fun k hk => by rw [getLsbD_operate]; grind

@[simp] theorem fieldOf_operate_sr1 : fieldOf (op ++ dr ++ sr1 ++ mode ++ low) 6 3 = sr1 :=
  fieldOf_eq_of_bits fun k hk => by rw [getLsbD_operate]; grind

@[simp] theorem fieldOf_operate_low : fieldOf (op ++ dr ++ sr1 ++ mode ++ low) 0 5 = low :=
  fieldOf_eq_of_bits fun k hk => by rw [getLsbD_operate]; grind

end

section
variable (op : BitVec 4) (dr sr1 : RegId) (mode : BitVec 1) (ign : BitVec 2) (sr2 : RegId)

/-- The register form is the operate format whose five operand bits are the ignored bits and SR2. -/
theorem operate_register_eq :
    (op ++ dr ++ sr1 ++ mode ++ ign ++ sr2 : Word) = op ++ dr ++ sr1 ++ mode ++ (ign ++ sr2) :=
  BitVec.append_assoc

theorem fieldOf_operate_ign : fieldOf (op ++ dr ++ sr1 ++ mode ++ (ign ++ sr2)) 3 2 = ign :=
  fieldOf_eq_of_bits fun k hk => by
    rw [getLsbD_operate, if_pos (by omega)]
    exact BitVec.getLsbD_append.trans (by simp)

theorem fieldOf_operate_sr2 : fieldOf (op ++ dr ++ sr1 ++ mode ++ (ign ++ sr2)) 0 3 = sr2 :=
  fieldOf_eq_of_bits fun k hk => by
    rw [getLsbD_operate, if_pos (by omega)]
    exact BitVec.getLsbD_append.trans (by simp [hk])

end

/-! ### The words of the two opcodes, with the mode bit 0 (register) or 1 (immediate) (R66) -/

section
variable (dr sr1 : RegId)

theorem decodeWord_0001_append (mode : BitVec 1) (low : BitVec 5) :
    decodeWord (0b0001#4 ++ dr ++ sr1 ++ mode ++ low) = decodeAdd (0b0001#4 ++ dr ++ sr1 ++ mode ++ low) := by
  have hbit := bitOf_operate_opcode 0b0001#4 dr sr1 mode low
  exact decodeWord_0001 (hbit 3) (hbit 2) (hbit 1) (hbit 0)

theorem decodeWord_0101_append (mode : BitVec 1) (low : BitVec 5) :
    decodeWord (0b0101#4 ++ dr ++ sr1 ++ mode ++ low) = decodeAnd (0b0101#4 ++ dr ++ sr1 ++ mode ++ low) := by
  have hbit := bitOf_operate_opcode 0b0101#4 dr sr1 mode low
  exact decodeWord_0101 (hbit 3) (hbit 2) (hbit 1) (hbit 0)

theorem decodeWord_addReg (ign : BitVec 2) (sr2 : RegId) :
    decodeWord (0b0001#4 ++ dr ++ sr1 ++ 0#1 ++ ign ++ sr2) = .addReg dr sr1 ign sr2 := by
  rw [operate_register_eq, decodeWord_0001_append, decodeAdd, if_neg (by simp), fieldOf_operate_dr,
    fieldOf_operate_sr1, fieldOf_operate_ign, fieldOf_operate_sr2]

theorem decodeWord_addImm (imm5 : BitVec 5) :
    decodeWord (0b0001#4 ++ dr ++ sr1 ++ 1#1 ++ imm5) = .addImm dr sr1 imm5 := by
  rw [decodeWord_0001_append]
  simp [decodeAdd]

theorem decodeWord_andReg (ign : BitVec 2) (sr2 : RegId) :
    decodeWord (0b0101#4 ++ dr ++ sr1 ++ 0#1 ++ ign ++ sr2) = .andReg dr sr1 ign sr2 := by
  rw [operate_register_eq, decodeWord_0101_append, decodeAnd, if_neg (by simp), fieldOf_operate_dr,
    fieldOf_operate_sr1, fieldOf_operate_ign, fieldOf_operate_sr2]

theorem decodeWord_andImm (imm5 : BitVec 5) :
    decodeWord (0b0101#4 ++ dr ++ sr1 ++ 1#1 ++ imm5) = .andImm dr sr1 imm5 := by
  rw [decodeWord_0101_append]
  simp [decodeAnd]

end

/-! ### Sign extension (R11) -/

/-- The bits the recipe of R11 ORs in are those from `width` up. -/
theorem getElem_extensionMask (width : Nat) {k : Nat} (hk : k < 16) :
    (0xFFFF#16 <<< width)[k] = decide (width ≤ k) := by
  rw [show 0xFFFF#16 = BitVec.allOnes 16 from rfl, BitVec.getElem_shiftLeft,
    BitVec.getElem_allOnes]
  grind

/-- The recipe of R11 is two's-complement sign extension. -/
theorem extendField_eq_signExtend {width : Nat} (v : BitVec width) : extendField v = v.signExtend 16 := by
  unfold extendField
  split
  next hneg =>
    apply BitVec.eq_of_getElem_eq
    intro k hk
    rw [BitVec.getElem_or, getElem_extensionMask, BitVec.getElem_setWidth, BitVec.getElem_signExtend, hneg]
    grind
  next hpos => exact (BitVec.signExtend_eq_setWidth_of_msb_false (by simpa using hpos)).symm

theorem sext5_eq_signExtend (imm5 : BitVec 5) : sext5 imm5 = imm5.signExtend 16 :=
  extendField_eq_signExtend imm5

/-! ### Handlers that end in a result (R28) -/

/-- The commit of a result written on the state with `pc` moved on is the claims' `done` of `withResult`. -/
theorem commit_writeResult_setPc_eq_done (dr : RegId) (v : Word) (s : State) (target : Word) :
    (writeResult dr v (s.setPc target)).commit = done (withResult s dr v) target := by
  rw [writeResult_eq]; rfl

theorem exec_of_handlerOf_writeResult {i : Instr} {s : State} {dr : RegId} {v : Word}
    (h : handlerOf i (s.setPc (s.pc + 1#16)) = .ok (writeResult dr v (s.setPc (s.pc + 1#16)))) :
    exec i s = .next (done (withResult s dr v) (s.pc + 1#16)) := by
  rw [exec_of_handlerOf_ok h, commit_writeResult_setPc_eq_done]

/-! ### The two opcodes -/

/-- Settles O8: each form's word decodes by its opcode and mode bit, and its handler writes one result, the sum of the
operands it reads before DR is written. -/
theorem addAnswersTheSum : Obligations.AddAnswersTheSum := by
  intro dr sr1 sr2 ign imm5 s
  refine ⟨decodeWord_addReg dr sr1 ign sr2, decodeWord_addImm dr sr1 imm5,
    exec_of_handlerOf_writeResult rfl, ?_⟩
  rw [← sext5_eq_signExtend]
  exact exec_of_handlerOf_writeResult rfl

/-- Settles O9: as for ADD, with the bitwise and for the sum. -/
theorem andAnswersTheConjunction : Obligations.AndAnswersTheConjunction := by
  intro dr sr1 sr2 ign imm5 s
  refine ⟨decodeWord_andReg dr sr1 ign sr2, decodeWord_andImm dr sr1 imm5,
    exec_of_handlerOf_writeResult rfl, ?_⟩
  rw [← sext5_eq_signExtend]
  exact exec_of_handlerOf_writeResult rfl

end Sys2Proof.Proofs.Operate
end

section
/-! Proofs about the call linkage (spec/42_call_linkage_stack.md R95): what JSR (spec/43_control.md R100) and `JMP R7`
(R99) answer, and the round trip of the two. -/

namespace Sys2Proof.Proofs.CallLinkage

open Machine Claims Dispatch Operate Flags

theorem sext11_eq_signExtend (off11 : BitVec 11) : sext11 off11 = off11.signExtend 16 :=
  extendField_eq_signExtend off11

theorem popIntoLink_top {s : State} {rest : List Word} {v : Word} (h : s.cls = rest ++ [v]) :
    popIntoLink 7#3 s = (s.setCls rest).setReg 7#3 v := by
  simp [popIntoLink, linkReg, clsPop_top h]

/-- Below capacity the link cannot fault, so JSR commits (R100). -/
theorem exec_jsr_of_not_full {s : State} (off11 : BitVec 11) (hroom : s.cls.length ≠ s.params.clsDepth) :
    exec (.jsr off11) s =
      .next (done { withReg s 7#3 (s.pc + 1#16) with cls := s.cls ++ [s.pc + 1#16] }
        (s.pc + 1#16 + off11.signExtend 16)) := by
  have hlink := linkCall_ok_iff (s := s.setPc (s.pc + 1#16)) |>.mpr ⟨hroom, rfl⟩
  rw [exec_of_handlerOf_ok (handlerOf_jsr_ok_iff.mpr ⟨_, hlink, rfl⟩), ← sext11_eq_signExtend]
  rfl

/-- `JMP R7` with an entry on the stack goes to the top entry, whatever R7 held: the pop comes before the target is
read (R99). -/
theorem exec_jmp_link_of_top {s : State} {rest : List Word} {v : Word} (ignHi : BitVec 3) (ignLo : BitVec 6)
    (htop : s.cls = rest ++ [v]) :
    exec (.jmp ignHi 7#3 ignLo) s = .next (done { withReg s 7#3 v with cls := rest } v) := by
  have hpop := popIntoLink_top (s := s.setPc (s.pc + 1#16)) htop
  rw [exec_of_handlerOf_ok rfl, hpop, State.reg_setReg_same]
  rfl

/-- Settles O49: the call leaves P on top of the stack it found, so the pop of any later `JMP R7` on that stack gives P
back and uncovers the stack of before. -/
theorem callReturnRoundTrip : Obligations.CallReturnRoundTrip := by
  intro off11 g h s hroom
  refine ⟨_, exec_jsr_of_not_full off11 hroom, State.reg_setReg_same .., rfl, rfl, fun u hu => ?_⟩
  exact ⟨_, exec_jmp_link_of_top g h hu, State.reg_setReg_same .., rfl, rfl⟩

end Sys2Proof.Proofs.CallLinkage
end

section
/-! Proofs about the control transfers BR, JMP and TRAP (spec/43_control.md R97, R99, R102): how their words are read back
(spec/30_encoding.md R61), and what each answers. -/

namespace Sys2Proof.Proofs.Control

open Machine Claims Dispatch Operate CallLinkage

/-! ### Reading the twelve bits below the opcode (R61) -/

theorem getLsbD_append_of_lt {m w k : Nat} {x : BitVec m} {y : BitVec w} (h : k < w) :
    (x ++ y).getLsbD k = y.getLsbD k :=
  BitVec.getLsbD_append.trans (if_pos h)

theorem getLsbD_ofBool_append_top {w : Nat} (b : Bool) (y : BitVec w) :
    (BitVec.ofBool b ++ y).getLsbD w = b := by
  rw [BitVec.getLsbD_append]; simp

section
variable (op : BitVec 4) (x : BitVec 12)

theorem bitOf_opcode_append_of_lt (k : Nat) (h : k < 12) : bitOf (op ++ x) k = x.getLsbD k :=
  getLsbD_append_of_lt h

theorem fieldOf_opcode_append_of_le (lo len : Nat) (h : lo + len ≤ 12) :
    fieldOf (op ++ x) lo len = x.extractLsb' lo len :=
  BitVec.extractLsb'_append_eq_of_add_le h

end

theorem decodeWord_0000_append (x : BitVec 12) :
    decodeWord (0b0000#4 ++ x) =
      .br (x.getLsbD 11) (x.getLsbD 10) (x.getLsbD 9) (x.extractLsb' 0 9) := by
  have hbit := bitOf_opcode_append 0b0000#4 x
  have hlow := bitOf_opcode_append_of_lt 0b0000#4 x
  rw [decodeWord_0000 (hbit 3) (hbit 2) (hbit 1) (hbit 0), hlow 11 (by decide), hlow 10 (by decide),
    hlow 9 (by decide), fieldOf_opcode_append_of_le _ _ 0 9 (by decide)]

theorem decodeWord_1100_append (x : BitVec 12) :
    decodeWord (0b1100#4 ++ x) = .jmp (x.extractLsb' 9 3) (x.extractLsb' 6 3) (x.extractLsb' 0 6) := by
  have hbit := bitOf_opcode_append 0b1100#4 x
  have hfield := fieldOf_opcode_append_of_le 0b1100#4 x
  rw [decodeWord_1100 (hbit 3) (hbit 2) (hbit 1) (hbit 0), hfield 9 3 (by decide), hfield 6 3 (by decide),
    hfield 0 6 (by decide)]

theorem decodeWord_1111_append (x : BitVec 12) :
    decodeWord (0b1111#4 ++ x) = .trap (x.extractLsb' 8 4) (x.extractLsb' 0 8) := by
  have hbit := bitOf_opcode_append 0b1111#4 x
  have hfield := fieldOf_opcode_append_of_le 0b1111#4 x
  rw [decodeWord_1111 (hbit 3) (hbit 2) (hbit 1) (hbit 0), hfield 8 4 (by decide), hfield 0 8 (by decide)]

theorem decodeWord_br (n z p : Bool) (off9 : BitVec 9) :
    decodeWord (0b0000#4 ++ BitVec.ofBool n ++ BitVec.ofBool z ++ BitVec.ofBool p ++ off9) =
      .br n z p off9 := by
  have hword : (0b0000#4 ++ BitVec.ofBool n ++ BitVec.ofBool z ++ BitVec.ofBool p ++ off9 : Word) =
      0b0000#4 ++ (BitVec.ofBool n ++ (BitVec.ofBool z ++ (BitVec.ofBool p ++ off9))) :=
    BitVec.append_assoc.trans (BitVec.append_assoc.trans BitVec.append_assoc)
  rw [hword, decodeWord_0000_append]
  congr 1
  · exact getLsbD_ofBool_append_top ..
  · exact (getLsbD_append_of_lt (by decide)).trans (getLsbD_ofBool_append_top ..)
  · exact (getLsbD_append_of_lt (by decide)).trans <|
      (getLsbD_append_of_lt (by decide)).trans (getLsbD_ofBool_append_top ..)
  · exact (BitVec.extractLsb'_append_eq_of_add_le (by decide)).trans <|
      (BitVec.extractLsb'_append_eq_of_add_le (by decide)).trans BitVec.extractLsb'_append_eq_right

theorem decodeWord_jmp (ignHi : BitVec 3) (base : RegId) (ignLo : BitVec 6) :
    decodeWord (0b1100#4 ++ ignHi ++ base ++ ignLo) = .jmp ignHi base ignLo := by
  have hword : (0b1100#4 ++ ignHi ++ base ++ ignLo : Word) = 0b1100#4 ++ (ignHi ++ (base ++ ignLo)) :=
    BitVec.append_assoc.trans BitVec.append_assoc
  rw [hword, decodeWord_1100_append]
  congr 1
  · exact BitVec.extractLsb'_append_eq_left
  · exact (BitVec.extractLsb'_append_eq_of_add_le (by decide)).trans BitVec.extractLsb'_append_eq_left
  · exact (BitVec.extractLsb'_append_eq_of_add_le (by decide)).trans BitVec.extractLsb'_append_eq_right

/-! ### A handler that only moves `pc` -/

theorem exec_of_handlerOf_setPc {i : Instr} {s : State} {target : Word}
    (h : handlerOf i (s.setPc (s.pc + 1#16)) = .ok (s.setPc target)) :
    exec i s = .next (done s target) := by
  rw [exec_of_handlerOf_ok h, commit_setPc_eq_done]

/-! ### BR (R97) -/

theorem sext9_eq_signExtend (off9 : BitVec 9) : sext9 off9 = off9.signExtend 16 :=
  extendField_eq_signExtend off9

section
variable {n z p : Bool} {s : State} (off9 : BitVec 9)

theorem exec_br_of_taken (h : branchTaken n z p s = true) :
    exec (.br n z p off9) s = .next (done s (s.pc + 1#16 + off9.signExtend 16)) := by
  rw [← sext9_eq_signExtend]
  exact exec_of_handlerOf_setPc (congrArg Except.ok (if_pos h))

theorem exec_br_of_not_taken (h : ¬ branchTaken n z p s = true) :
    exec (.br n z p off9) s = .next (done s (s.pc + 1#16)) :=
  exec_of_handlerOf_setPc (congrArg Except.ok (if_neg h))

end

/-- With nzp = 111 the branch tests all three flags, and one of them is set (R30). -/
theorem branchTaken_all_of_oneHot {s : State} (h : s.oneHot) : branchTaken true true true s = true := by
  rw [branchTaken_iff]
  rcases h with h | h | h
  · exact .inl ⟨rfl, congrArg (·.1) h⟩
  · exact .inr (.inl ⟨rfl, congrArg (·.2.1) h⟩)
  · exact .inr (.inr ⟨rfl, congrArg (·.2.2) h⟩)

/-- Settles O11: the word decodes by its fields, the two cases of the target are those of the branch condition, and with
one flag set nzp = 111 is the taken case. -/
theorem branchTakenByTheTestedFlags : Obligations.BranchTakenByTheTestedFlags := by
  intro n z p off9 s
  refine ⟨decodeWord_br n z p off9, ?_, fun h => exec_br_of_taken off9 (branchTaken_all_of_oneHot h)⟩
  simp only [← branchTaken_iff]
  split
  case isTrue h => exact exec_br_of_taken off9 h
  case isFalse h => exact exec_br_of_not_taken off9 h

/-! ### JMP (R99) -/

theorem popIntoLink_of_ne {base : RegId} (h : base ≠ 7#3) (s : State) : popIntoLink base s = s := if_neg h

theorem popIntoLink_of_empty {s : State} (base : RegId) (h : s.cls = []) : popIntoLink base s = s := by
  simp [popIntoLink, clsPop_empty h]

/-- A JMP that pops nothing goes to BaseR's value. -/
theorem exec_jmp_of_no_pop {base : RegId} {s : State} (ignHi : BitVec 3) (ignLo : BitVec 6)
    (h : popIntoLink base (s.setPc (s.pc + 1#16)) = s.setPc (s.pc + 1#16)) :
    exec (.jmp ignHi base ignLo) s = .next (done s (s.reg base)) :=
  exec_of_handlerOf_setPc (by simp only [handlerOf, h]; rfl)

/-- Settles O13: the pop does nothing with another BaseR or an empty stack; else it is the return through the top
entry. -/
theorem jumpAndReturn : Obligations.JumpAndReturn := by
  intro ignHi base ignLo s
  refine ⟨decodeWord_jmp ignHi base ignLo, fun hne => ?_, fun hempty => ?_, fun rest v hbase htop => ?_⟩
  · exact exec_jmp_of_no_pop ignHi ignLo (popIntoLink_of_ne hne _)
  · exact exec_jmp_of_no_pop ignHi ignLo (popIntoLink_of_empty base hempty)
  · subst hbase
    exact exec_jmp_link_of_top ignHi ignLo htop

/-! ### TRAP (R102) -/

/-- Settles O16: opcode 1111 alone decides the row, and the handler moves `pc` to 0 and does nothing else. -/
theorem trapSetsPcToTheHaltSentinel : Obligations.TrapSetsPcToTheHaltSentinel :=
  ⟨fun x => ⟨_, _, decodeWord_1111_append x⟩, fun _ _ _ => exec_of_handlerOf_setPc rfl⟩

end Sys2Proof.Proofs.Control
end

section
/-! Proofs about the faults (spec/60_exceptions.md R113, R116): the checks a step can fail, and the record each failure
leaves. A handler's fault records the word of its instruction, so the encoder is shown to give every decoded word back
(spec/30_encoding.md R68). -/

namespace Sys2Proof.Proofs.Exceptions

open Machine Claims Operate Flags Control

/-! ### The encoder puts together what the decoder takes apart (R61, R68) -/

section
variable (w : Word)

theorem ofBool_bitOf (k : Nat) : BitVec.ofBool (bitOf w k) = fieldOf w k 1 := by
  refine (fieldOf_eq_of_bits fun j hj => ?_).symm
  obtain rfl : j = 0 := by omega
  simp [bitOf]

/-- Two neighbouring fields side by side are one field. -/
theorem fieldOf_append_fieldOf {hi lo m n : Nat} (h : hi = lo + n) :
    fieldOf w hi m ++ fieldOf w lo n = fieldOf w lo (m + n) :=
  BitVec.extractLsb'_append_extractLsb'_eq_extractLsb' h

theorem fieldOf_whole : fieldOf w 0 16 = w := BitVec.extractLsb'_eq_self

theorem fieldOf_one_cases (k : Nat) :
    (bitOf w k = true ∧ fieldOf w k 1 = 1#1) ∨ (bitOf w k = false ∧ fieldOf w k 1 = 0#1) := by
  rw [← ofBool_bitOf]
  cases bitOf w k <;> decide

theorem fieldOf_opcode :
    fieldOf w 12 4 =
      BitVec.ofBool (bitOf w 15) ++ BitVec.ofBool (bitOf w 14) ++ BitVec.ofBool (bitOf w 13) ++
        BitVec.ofBool (bitOf w 12) := by
  simp only [ofBool_bitOf, fieldOf_append_fieldOf]

end

section
variable {w : Word}

theorem encode_decodeAdd (hop : fieldOf w 12 4 = 0b0001#4) : encode (decodeAdd w) = w := by
  rcases fieldOf_one_cases w 5 with ⟨h, hmode⟩ | ⟨h, hmode⟩
  all_goals
    simp only [decodeAdd, h, Bool.false_eq_true, ↓reduceIte, encode, ← hmode, ← hop, fieldOf_append_fieldOf]
    exact fieldOf_whole w

theorem encode_decodeAnd (hop : fieldOf w 12 4 = 0b0101#4) : encode (decodeAnd w) = w := by
  rcases fieldOf_one_cases w 5 with ⟨h, hmode⟩ | ⟨h, hmode⟩
  all_goals
    simp only [decodeAnd, h, Bool.false_eq_true, ↓reduceIte, encode, ← hmode, ← hop, fieldOf_append_fieldOf]
    exact fieldOf_whole w

theorem encode_decodeCall (hop : fieldOf w 12 4 = 0b0100#4) : encode (decodeCall w) = w := by
  rcases fieldOf_one_cases w 11 with ⟨h, hmode⟩ | ⟨h, hmode⟩
  all_goals
    simp only [decodeCall, h, Bool.false_eq_true, ↓reduceIte, encode, ← hmode, ← hop, fieldOf_append_fieldOf]
    exact fieldOf_whole w

end

/-- The opcode bits that chose the row are the ones `encode` writes back, and the row's fields, laid side by side, are
the rest of the word. -/
theorem encode_decodeWord (w : Word) : encode (decodeWord w) = w := by
  have hop := fieldOf_opcode w
  unfold decodeWord
  split <;> rename_i h15 h14 h13 h12 <;>
    simp only [h15, h14, h13, h12, BitVec.ofBool_false, BitVec.ofBool_true, BitVec.reduceAppend] at hop
  case h_2 => exact encode_decodeAdd hop
  case h_5 => exact encode_decodeCall hop
  case h_6 => exact encode_decodeAnd hop
  all_goals
    simp only [encode, ofBool_bitOf, ← hop, fieldOf_append_fieldOf]
    exact fieldOf_whole w

/-! ### The addresses a handler computes are the claims' addresses (R103) -/

theorem sext6_eq_signExtend (off6 : BitVec 6) : sext6 off6 = off6.signExtend 16 :=
  extendField_eq_signExtend off6

section
variable (s : State)

theorem pcRelative_setPc_eq_pcRel (off9 : BitVec 9) :
    pcRelative (s.setPc (s.pc + 1#16)) off9 = pcRel s off9 := by
  rw [pcRelative, sext9_eq_signExtend]; rfl

theorem baseOffset_setPc_eq_baseRel (base : RegId) (off6 : BitVec 6) :
    baseOffset (s.setPc (s.pc + 1#16)) base off6 = baseRel s base off6 := by
  rw [baseOffset, sext6_eq_signExtend]; rfl

/-- The address check reads the parameters only. -/
theorem checkAddress_setPc (target : Word) (kind : AccessKind) (a : Word) :
    checkAddress (s.setPc target) kind a = checkAddress s kind a := rfl

theorem checkAddress_pcRelative_setPc (kind : AccessKind) (off9 : BitVec 9) :
    checkAddress (s.setPc (s.pc + 1#16)) kind (pcRelative (s.setPc (s.pc + 1#16)) off9) =
      checkAddress s kind (pcRel s off9) := by
  rw [pcRelative_setPc_eq_pcRel, checkAddress_setPc]

theorem checkAddress_baseOffset_setPc (kind : AccessKind) (base : RegId) (off6 : BitVec 6) :
    checkAddress (s.setPc (s.pc + 1#16)) kind (baseOffset (s.setPc (s.pc + 1#16)) base off6) =
      checkAddress s kind (baseRel s base off6) := by
  rw [baseOffset_setPc_eq_baseRel, checkAddress_setPc]

end

/-! ### The checks a handler can fail (R116) -/

section
variable {s : State} {r : Raise}

theorem indirect_error_iff {off9 : BitVec 9} :
    indirect s off9 = .error r ↔ checkAddress s .load (pcRelative s off9) = .error r := memRead_error_iff

theorem handlerOf_ldi_error_iff {dr : RegId} {off9 : BitVec 9} :
    handlerOf (.ldi dr off9) s = .error r ↔
      indirect s off9 = .error r ∨ ∃ a, indirect s off9 = .ok a ∧ loadInto dr a s = .error r := by
  cases hx : indirect s off9 <;> simp [handlerOf, hx]

theorem handlerOf_sti_error_iff {sr : RegId} {off9 : BitVec 9} :
    handlerOf (.sti sr off9) s = .error r ↔
      indirect s off9 = .error r ∨ ∃ a, indirect s off9 = .ok a ∧ memWrite s a (s.reg sr) = .error r := by
  cases hx : indirect s off9 <;> simp [handlerOf, hx]

theorem handlerOf_jsr_error_iff {off11 : BitVec 11} :
    handlerOf (.jsr off11) s = .error r ↔ linkCall s = .error r := by
  cases hx : linkCall s <;> simp [handlerOf, hx]

theorem handlerOf_jsrr_error_iff {ignHi : BitVec 2} {base : RegId} {ignLo : BitVec 6} :
    handlerOf (.jsrr ignHi base ignLo) s = .error r ↔ linkCall s = .error r := by
  cases hx : linkCall s <;> simp [handlerOf, hx]

/-- The pointer LDI and STI go through is the word their first access reads. -/
theorem eq_read_of_indirect_ok {off9 : BitVec 9} {a : Word}
    (h : indirect (s.setPc (s.pc + 1#16)) off9 = .ok a) : a = s.mem.read (pcRel s off9).toNat := by
  rw [← pcRelative_setPc_eq_pcRel]
  exact (memRead_ok_iff.mp h).2

/-- A handler raises only what the address check of one of its data accesses raises, or the overflow of its push. -/
theorem handlerOf_error_cases {i : Instr} (h : handlerOf i (s.setPc (s.pc + 1#16)) = .error r) :
    (∃ kind a, (kind, a) ∈ accesses s i ∧ checkAddress s kind a = .error r) ∨
    (pushes i = true ∧ s.cls.length = s.params.clsDepth ∧
      r = { cause := .clsOverflow, addr := s.pc + 1#16 }) := by
  have hpc {kind off9} := checkAddress_pcRelative_setPc s kind off9
  have hbase {kind base off6} := checkAddress_baseOffset_setPc s kind base off6
  cases i with
  | addReg | addImm | andReg | andImm | br | jmp | lea | notReg | trap | rti | res => cases h
  | jsr => exact .inr ⟨rfl, linkCall_error_iff.mp (handlerOf_jsr_error_iff.mp h)⟩
  | jsrr => exact .inr ⟨rfl, linkCall_error_iff.mp (handlerOf_jsrr_error_iff.mp h)⟩
  | ld => exact .inl ⟨_, _, .head _, hpc.symm.trans (loadInto_error_iff.mp h)⟩
  | ldr => exact .inl ⟨_, _, .head _, hbase.symm.trans (loadInto_error_iff.mp h)⟩
  | st => exact .inl ⟨_, _, .head _, hpc.symm.trans (memWrite_error_iff.mp h)⟩
  | str => exact .inl ⟨_, _, .head _, hbase.symm.trans (memWrite_error_iff.mp h)⟩
  | ldi =>
    rcases handlerOf_ldi_error_iff.mp h with hptr | ⟨a, ha, hload⟩
    · exact .inl ⟨_, _, .head _, hpc.symm.trans (indirect_error_iff.mp hptr)⟩
    · obtain rfl := eq_read_of_indirect_ok ha
      exact .inl ⟨_, _, .tail _ (.head _), checkAddress_setPc s .. ▸ loadInto_error_iff.mp hload⟩
  | sti =>
    rcases handlerOf_sti_error_iff.mp h with hptr | ⟨a, ha, hstore⟩
    · exact .inl ⟨_, _, .head _, hpc.symm.trans (indirect_error_iff.mp hptr)⟩
    · obtain rfl := eq_read_of_indirect_ok ha
      exact .inl ⟨_, _, .tail _ (.head _), checkAddress_setPc s .. ▸ memWrite_error_iff.mp hstore⟩

end

theorem fetch_not_mem_accesses (s : State) (i : Instr) (a : Word) : (.fetch, a) ∉ accesses s i := by
  cases i <;> simp [accesses]

theorem accessFault_of_accessible {s : State} {a : Word} (code : BitVec 3) (h : s.accessible a) :
    accessFault s code a = none := by
  obtain ⟨hrange, hregion⟩ := h
  rw [accessFault, if_neg (Nat.not_le.mpr (show a.toNat < 0x8000 from hrange)), if_neg hregion]

/-- A handler that commits keeps FAULTED, since none writes it. -/
theorem handlerOf_ok_faulted {i : Instr} {s u : State} (h : handlerOf i s = .ok u) : u.faulted = s.faulted := by
  cases i with
  | addReg | addImm | andReg | andImm | notReg => cases h; simp [writeResult_eq]
  | lea | trap | rti | res => cases h; rfl
  | br => cases h; split <;> rfl
  | jmp _ base =>
    cases h
    rcases popIntoLink_cases base s with ⟨-, hp⟩ | ⟨-, -, hp⟩ | ⟨-, rest, v, -, hp⟩ <;> simp [hp]
  | jsr =>
    obtain ⟨w, hw, rfl⟩ := handlerOf_jsr_ok_iff.mp h
    rw [(linkCall_ok_iff.mp hw).2]; rfl
  | jsrr =>
    obtain ⟨w, hw, rfl⟩ := handlerOf_jsrr_ok_iff.mp h
    rw [(linkCall_ok_iff.mp hw).2]; rfl
  | ld | ldr => rw [(loadInto_ok_iff.mp h).2]; simp [writeResult_eq]
  | ldi =>
    obtain ⟨a, -, hl⟩ := handlerOf_ldi_ok_iff.mp h
    rw [(loadInto_ok_iff.mp hl).2]; simp [writeResult_eq]
  | st | str => rw [(memWrite_ok_iff.mp h).2]; rfl
  | sti =>
    obtain ⟨a, -, hw⟩ := handlerOf_sti_ok_iff.mp h
    rw [(memWrite_ok_iff.mp hw).2]; rfl

/-- An instruction that ends FAULTED failed a check of its handler. -/
theorem exec_faulted_inv {i : Instr} {s t : State} (hs : s.faulted = false) (h : exec i s = .next t)
    (ht : t.faulted = true) :
    ∃ r, handlerOf i (s.setPc (s.pc + 1#16)) = .error r ∧ t = takeFault r (encode i) s := by
  rcases exec_next_iff.mp h with ⟨u, hu, rfl⟩ | hfault
  · simp [handlerOf_ok_faulted hu, hs] at ht
  · exact hfault

/-- Settles O39: a step faults at its fetch, where the failing check gives rows 1 and 5, or in its handler, where a
failing data access gives rows 2, 3 and 5 by its kind and the push of a call gives row 4. -/
theorem faultRecordFollowsTheCauseTable : Obligations.FaultRecordFollowsTheCauseTable := by
  intro s t hs hstep ht
  rcases step_next_iff.mp hstep with ⟨hf, -⟩ | ⟨-, hpc, hexec⟩ | ⟨-, r, hfetch, rfl⟩
  · simp [hs] at hf
  · obtain ⟨r, hr, rfl⟩ := exec_faulted_inv hs hexec ht
    refine .inr (.inr ⟨accessFault_of_accessible 1 hpc, encode_decodeWord _, ?_⟩)
    simp only [takeFault_eq, State.recordFault_faultIr, State.recordFault_faultCause,
      State.recordFault_faultAddr, encode_decodeWord]
    rcases handlerOf_error_cases hr with ⟨kind, a, hmem, hcheck⟩ | ⟨hpush, hfull, rfl⟩
    · rcases checkAddress_error_iff.mp hcheck with ⟨hrange, rfl⟩ | ⟨-, hregion, rfl⟩
      · cases kind with
        | fetch => exact absurd hmem (fetch_not_mem_accesses s _ a)
        | load => exact .inl ⟨rfl, hrange, hmem⟩
        | store => exact .inr (.inl ⟨rfl, hrange, hmem⟩)
      · exact .inr (.inr (.inr ⟨rfl, hregion, kind, hmem⟩))
    · exact .inr (.inr (.inl ⟨rfl, hpush, hfull, rfl⟩))
  · rcases checkAddress_error_iff.mp hfetch with ⟨hrange, rfl⟩ | ⟨hrange, hregion, rfl⟩
    · exact .inl ⟨rfl, hrange, rfl⟩
    · exact .inr (.inl ⟨rfl, hrange, hregion, rfl⟩)

end Sys2Proof.Proofs.Exceptions
end

section
/-! Proofs about the encoding (spec/30_encoding.md R60–R68): how the words of the remaining formats are read back, and that
the decoder and the encoder are inverse. -/

namespace Sys2Proof.Proofs.Encoding

open Machine Claims Dispatch Operate Control Exceptions

/-! ### The format with a register and nine low bits (R61) -/

section
variable (op : BitVec 4) (r : RegId) (off9 : BitVec 9)

theorem pcrel_word_eq : (op ++ r ++ off9 : Word) = op ++ (r ++ off9) := BitVec.append_assoc

theorem bitOf_pcrel_opcode (k : Nat) : bitOf (op ++ r ++ off9) (12 + k) = op.getLsbD k := by
  rw [pcrel_word_eq, bitOf_opcode_append]

theorem fieldOf_pcrel_reg : fieldOf (op ++ r ++ off9) 9 3 = r := by
  rw [pcrel_word_eq, fieldOf_opcode_append_of_le _ _ _ _ (by decide)]
  exact BitVec.extractLsb'_append_eq_left

theorem fieldOf_pcrel_off : fieldOf (op ++ r ++ off9) 0 9 = off9 := BitVec.extractLsb'_append_eq_right

theorem decodeWord_ld : decodeWord (0b0010#4 ++ r ++ off9) = .ld r off9 := by
  have hbit := bitOf_pcrel_opcode 0b0010#4 r off9
  rw [decodeWord_0010 (hbit 3) (hbit 2) (hbit 1) (hbit 0), fieldOf_pcrel_reg, fieldOf_pcrel_off]

theorem decodeWord_st : decodeWord (0b0011#4 ++ r ++ off9) = .st r off9 := by
  have hbit := bitOf_pcrel_opcode 0b0011#4 r off9
  rw [decodeWord_0011 (hbit 3) (hbit 2) (hbit 1) (hbit 0), fieldOf_pcrel_reg, fieldOf_pcrel_off]

theorem decodeWord_ldi : decodeWord (0b1010#4 ++ r ++ off9) = .ldi r off9 := by
  have hbit := bitOf_pcrel_opcode 0b1010#4 r off9
  rw [decodeWord_1010 (hbit 3) (hbit 2) (hbit 1) (hbit 0), fieldOf_pcrel_reg, fieldOf_pcrel_off]

theorem decodeWord_sti : decodeWord (0b1011#4 ++ r ++ off9) = .sti r off9 := by
  have hbit := bitOf_pcrel_opcode 0b1011#4 r off9
  rw [decodeWord_1011 (hbit 3) (hbit 2) (hbit 1) (hbit 0), fieldOf_pcrel_reg, fieldOf_pcrel_off]

theorem decodeWord_lea : decodeWord (0b1110#4 ++ r ++ off9) = .lea r off9 := by
  have hbit := bitOf_pcrel_opcode 0b1110#4 r off9
  rw [decodeWord_1110 (hbit 3) (hbit 2) (hbit 1) (hbit 0), fieldOf_pcrel_reg, fieldOf_pcrel_off]

end

/-! ### The format with two registers and six low bits (R61) -/

section
variable (op : BitVec 4) (a b : RegId) (low : BitVec 6)

theorem base_word_eq : (op ++ a ++ b ++ low : Word) = op ++ (a ++ (b ++ low)) :=
  BitVec.append_assoc.trans BitVec.append_assoc

theorem bitOf_base_opcode (k : Nat) : bitOf (op ++ a ++ b ++ low) (12 + k) = op.getLsbD k := by
  rw [base_word_eq, bitOf_opcode_append]

theorem fieldOf_base_first : fieldOf (op ++ a ++ b ++ low) 9 3 = a := by
  rw [base_word_eq, fieldOf_opcode_append_of_le _ _ _ _ (by decide)]
  exact BitVec.extractLsb'_append_eq_left

theorem fieldOf_base_second : fieldOf (op ++ a ++ b ++ low) 6 3 = b := by
  rw [base_word_eq, fieldOf_opcode_append_of_le _ _ _ _ (by decide)]
  exact (BitVec.extractLsb'_append_eq_of_add_le (by decide)).trans BitVec.extractLsb'_append_eq_left

theorem fieldOf_base_low : fieldOf (op ++ a ++ b ++ low) 0 6 = low := BitVec.extractLsb'_append_eq_right

theorem decodeWord_ldr : decodeWord (0b0110#4 ++ a ++ b ++ low) = .ldr a b low := by
  have hbit := bitOf_base_opcode 0b0110#4 a b low
  rw [decodeWord_0110 (hbit 3) (hbit 2) (hbit 1) (hbit 0), fieldOf_base_first, fieldOf_base_second,
    fieldOf_base_low]

theorem decodeWord_str : decodeWord (0b0111#4 ++ a ++ b ++ low) = .str a b low := by
  have hbit := bitOf_base_opcode 0b0111#4 a b low
  rw [decodeWord_0111 (hbit 3) (hbit 2) (hbit 1) (hbit 0), fieldOf_base_first, fieldOf_base_second,
    fieldOf_base_low]

theorem decodeWord_notReg : decodeWord (0b1001#4 ++ a ++ b ++ low) = .notReg a b low := by
  have hbit := bitOf_base_opcode 0b1001#4 a b low
  rw [decodeWord_1001 (hbit 3) (hbit 2) (hbit 1) (hbit 0), fieldOf_base_first, fieldOf_base_second,
    fieldOf_base_low]

end

/-! ### The two calls, told apart by bit 11 (R66), and TRAP -/

theorem decodeWord_0100_append (x : BitVec 12) :
    decodeWord (0b0100#4 ++ x) = decodeCall (0b0100#4 ++ x) := by
  have hbit := bitOf_opcode_append 0b0100#4 x
  exact decodeWord_0100 (hbit 3) (hbit 2) (hbit 1) (hbit 0)

theorem bitOf_call_mode (mode : BitVec 1) (low : BitVec 11) :
    bitOf (0b0100#4 ++ (mode ++ low)) 11 = mode.getLsbD 0 :=
  (bitOf_opcode_append_of_lt _ _ 11 (by decide)).trans (BitVec.getLsbD_append.trans (by simp))

theorem decodeWord_jsr (off11 : BitVec 11) : decodeWord (0b0100#4 ++ 1#1 ++ off11) = .jsr off11 := by
  have hword : (0b0100#4 ++ 1#1 ++ off11 : Word) = 0b0100#4 ++ (1#1 ++ off11) := BitVec.append_assoc
  rw [hword, decodeWord_0100_append, decodeCall, if_pos (by rw [bitOf_call_mode]; decide)]
  exact congrArg Instr.jsr (BitVec.extractLsb'_append_eq_of_add_le (by decide) |>.trans
    BitVec.extractLsb'_append_eq_right)

theorem decodeWord_jsrr (ignHi : BitVec 2) (base : RegId) (ignLo : BitVec 6) :
    decodeWord (0b0100#4 ++ 0#1 ++ ignHi ++ base ++ ignLo) = .jsrr ignHi base ignLo := by
  have hword : (0b0100#4 ++ 0#1 ++ ignHi ++ base ++ ignLo : Word) =
      0b0100#4 ++ (0#1 ++ (ignHi ++ (base ++ ignLo))) :=
    BitVec.append_assoc.trans (BitVec.append_assoc.trans BitVec.append_assoc)
  have hmode := bitOf_call_mode 0#1 (ignHi ++ (base ++ ignLo))
  rw [hword, decodeWord_0100_append, decodeCall, if_neg (by rw [hmode]; decide)]
  have hfield := fieldOf_opcode_append_of_le 0b0100#4 (0#1 ++ (ignHi ++ (base ++ ignLo)))
  rw [hfield 9 2 (by decide), hfield 6 3 (by decide), hfield 0 6 (by decide)]
  congr 1
  all_goals refine (BitVec.extractLsb'_append_eq_of_add_le (by decide)).trans ?_
  · exact BitVec.extractLsb'_append_eq_left
  · exact (BitVec.extractLsb'_append_eq_of_add_le (by decide)).trans BitVec.extractLsb'_append_eq_left
  · exact (BitVec.extractLsb'_append_eq_of_add_le (by decide)).trans BitVec.extractLsb'_append_eq_right

theorem decodeWord_trap (ign : BitVec 4) (vect8 : BitVec 8) :
    decodeWord (0b1111#4 ++ ign ++ vect8) = .trap ign vect8 := by
  have hword : (0b1111#4 ++ ign ++ vect8 : Word) = 0b1111#4 ++ (ign ++ vect8) := BitVec.append_assoc
  rw [hword, decodeWord_1111_append]
  exact congrArg₂ Instr.trap BitVec.extractLsb'_append_eq_left BitVec.extractLsb'_append_eq_right

/-! ### The two directions (R68) -/

/-- Row by row: the word `encode` lays out is a word of its row's format. -/
theorem decodeWord_encode (i : Instr) : decodeWord (encode i) = i := by
  cases i with
  | addReg dr sr1 ign sr2 => exact decodeWord_addReg dr sr1 ign sr2
  | addImm dr sr1 imm5 => exact decodeWord_addImm dr sr1 imm5
  | andReg dr sr1 ign sr2 => exact decodeWord_andReg dr sr1 ign sr2
  | andImm dr sr1 imm5 => exact decodeWord_andImm dr sr1 imm5
  | br n z p off9 => exact decodeWord_br n z p off9
  | jmp ignHi base ignLo => exact decodeWord_jmp ignHi base ignLo
  | jsr off11 => exact decodeWord_jsr off11
  | jsrr ignHi base ignLo => exact decodeWord_jsrr ignHi base ignLo
  | ld dr off9 => exact decodeWord_ld dr off9
  | ldi dr off9 => exact decodeWord_ldi dr off9
  | ldr dr base off6 => exact decodeWord_ldr dr base off6
  | lea dr off9 => exact decodeWord_lea dr off9
  | notReg dr sr ign => exact decodeWord_notReg dr sr ign
  | st sr off9 => exact decodeWord_st sr off9
  | sti sr off9 => exact decodeWord_sti sr off9
  | str sr base off6 => exact decodeWord_str sr base off6
  | trap ign vect8 => exact decodeWord_trap ign vect8
  | rti ign => exact decodeWord_1000_append ign
  | res ign => exact decodeWord_1101_append ign

theorem wf_eq_true (i : Instr) : i.wf = true := by cases i <;> rfl

/-- Settles O1: every row's word is read back by its opcode bits and its fields. -/
theorem decodeOfEncodeIsTheInstruction : Obligations.DecodeOfEncodeIsTheInstruction :=
  fun i _ => decodeWord_encode i

/-- Settles O2: every instruction is well formed, and the encoder puts the decoded fields together again. -/
theorem encodeOfDecodeIsTheWord : Obligations.EncodeOfDecodeIsTheWord :=
  fun w => ⟨wf_eq_true _, encode_decodeWord w⟩

/-- Settles O3: each bit string of the table is the word of its row's instruction. -/
theorem everyFormatDecodesToItsRow : Obligations.EveryFormatDecodesToItsRow := by
  intro d a b g2 g3 v4 i5 i6 v8 i9 i11 x12 n z p
  exact ⟨decodeWord_addReg .., decodeWord_addImm .., decodeWord_andReg .., decodeWord_andImm ..,
    decodeWord_notReg .., decodeWord_br .., decodeWord_jmp .., decodeWord_jsr .., decodeWord_jsrr ..,
    decodeWord_ld .., decodeWord_ldi .., decodeWord_ldr .., decodeWord_lea .., decodeWord_st ..,
    decodeWord_sti .., decodeWord_str .., decodeWord_trap .., decodeWord_1000_append ..,
    decodeWord_1101_append ..⟩

/-- Settles O4: ten closed words, each run through the decoder. -/
theorem specExampleWordsDecode : Obligations.SpecExampleWordsDecode := by
  unfold Obligations.SpecExampleWordsDecode
  decide

end Sys2Proof.Proofs.Encoding
end

section
/-! Proofs about the operand forms (spec/00_scope.md R11; spec/30_encoding.md R63), NOT (spec/41_operate.md R87) and the
table of taken branches (spec/43_control.md R97 with spec/10_state.md R30). -/

namespace Sys2Proof.Proofs.Operands

open Machine Claims Operate Control

/-- Two's-complement sign extension keeps the signed value, so the recipe of R11 does. -/
theorem toInt_extendField {width : Nat} (v : BitVec width) (hw : width ≤ 16) :
    (extendField v).toInt = v.toInt := by
  rw [extendField_eq_signExtend, BitVec.toInt_signExtend_of_le hw]

/-- The signed range of a field, by its width (R63). -/
theorem toInt_range {k : Nat} (v : BitVec (k + 1)) : -2 ^ k ≤ v.toInt ∧ v.toInt ≤ 2 ^ k - 1 :=
  ⟨BitVec.le_toInt v, Int.le_sub_one_of_lt (BitVec.toInt_lt (x := v))⟩

/-- Settles O6: the recipe's value and the field's range, at the four widths. -/
theorem signExtensionKeepsTheSignedValue : Obligations.SignExtensionKeepsTheSignedValue :=
  ⟨fun v => ⟨toInt_extendField v (by decide), toInt_range v⟩,
    fun v => ⟨toInt_extendField v (by decide), toInt_range v⟩,
    fun v => ⟨toInt_extendField v (by decide), toInt_range v⟩,
    fun v => ⟨toInt_extendField v (by decide), toInt_range v⟩⟩

/-- Settles O10: NOT's handler writes one result, the complement of SR read before DR is written. -/
theorem notAnswersTheComplement : Obligations.NotAnswersTheComplement :=
  fun _ _ _ _ => exec_of_handlerOf_writeResult rfl

/-- With exactly one flag set, the branch condition is the condition bit of that flag. -/
theorem branchTaken_of_oneHot {s : State} (n z p : Bool) (h : s.oneHot) :
    branchTaken n z p s = if s.n then n else if s.z then z else p := by
  simp only [State.oneHot, Prod.mk.injEq] at h
  rcases h with ⟨hn, hz, hp⟩ | ⟨hn, hz, hp⟩ | ⟨hn, hz, hp⟩ <;> simp [branchTaken, hn, hz, hp]

/-- Settles O12: the condition bit of the set flag decides which of BR's two targets is taken. -/
theorem branchTableUnderOneHotFlags : Obligations.BranchTableUnderOneHotFlags := by
  intro n z p off9 s h
  rw [← branchTaken_of_oneHot n z p h]
  split
  case isTrue htaken => exact exec_br_of_taken off9 htaken
  case isFalse hnot => exact exec_br_of_not_taken off9 hnot

end Sys2Proof.Proofs.Operands
end

section
/-! Proofs about the memory accesses (spec/20_memory.md R46, R47; spec/44_load_store.md R103–R111), the call instructions at
and below capacity (spec/43_control.md R100, R101; spec/42_call_linkage_stack.md R90), and what of a step's fetch
(spec/40_dispatch.md R74, R75) is decided by the address check. -/

namespace Sys2Proof.Proofs.Accesses

open Machine Claims Flags Dispatch Operate CallLinkage Control Exceptions

/-! ### The claims' `accessFault` is the address check (R46) -/

theorem accessible_of_accessFault_eq_none {s : State} {code : BitVec 3} {a : Word}
    (h : accessFault s code a = none) : s.accessible a := by
  unfold accessFault at h
  split at h
  · cases h
  · next hrange =>
    split at h
    · cases h
    · next hregion => exact ⟨Nat.not_le.mp hrange, hregion⟩

theorem checkAddress_of_accessFault_eq_some {s : State} {kind : AccessKind} {c : BitVec 3} {a : Word}
    (h : accessFault s kind.rangeCause.code a = some c) :
    ∃ r : Raise, checkAddress s kind a = .error r ∧ r.cause.code = c ∧ r.addr = a := by
  unfold accessFault at h
  split at h
  · next hrange => cases h; exact ⟨_, checkAddress_error_iff.mpr (.inl ⟨hrange, rfl⟩), rfl, rfl⟩
  · next hrange =>
    split at h
    · next hregion =>
      cases h
      exact ⟨_, checkAddress_error_iff.mpr (.inr ⟨Nat.not_le.mp hrange, hregion, rfl⟩), rfl, rfl⟩
    · cases h

/-! ### A handler that raises is undone (R114) -/

theorem exec_of_handlerOf_error {i : Instr} {s : State} {r : Raise}
    (h : handlerOf i (s.setPc (s.pc + 1#16)) = .error r) :
    exec i s = .next (faultedWith s r.cause.code r.addr (encode i)) := by
  rw [exec_eq_runHandler, runHandler_of_error h]; rfl

/-! ### Handlers that end in one access to `a` (R105–R111) -/

section
variable {i : Instr} {s : State} {a : Word}

theorem exec_load_of_accessFault_none {dr : RegId}
    (hi : handlerOf i (s.setPc (s.pc + 1#16)) = loadInto dr a (s.setPc (s.pc + 1#16)))
    (ha : accessFault s 2 a = none) :
    exec i s = .next (done (withResult s dr (s.mem.read a.toNat)) (s.pc + 1#16)) :=
  exec_of_handlerOf_writeResult <|
    hi.trans (loadInto_ok_iff.mpr ⟨accessible_of_accessFault_eq_none ha, rfl⟩)

theorem exec_load_of_accessFault_some {dr : RegId} {c : BitVec 3}
    (hi : handlerOf i (s.setPc (s.pc + 1#16)) = loadInto dr a (s.setPc (s.pc + 1#16)))
    (ha : accessFault s 2 a = some c) : exec i s = .next (faultedWith s c a (encode i)) := by
  obtain ⟨r, hr, rfl, rfl⟩ := checkAddress_of_accessFault_eq_some (kind := .load) ha
  exact exec_of_handlerOf_error (hi.trans (loadInto_error_iff.mpr hr))

theorem exec_store_of_accessFault_none {v : Word}
    (hi : handlerOf i (s.setPc (s.pc + 1#16)) = memWrite (s.setPc (s.pc + 1#16)) a v)
    (ha : accessFault s 3 a = none) :
    exec i s = .next (done { s with mem := s.mem.write a.toNat v } (s.pc + 1#16)) :=
  exec_of_handlerOf_ok (hi.trans (memWrite_of_accessible (accessible_of_accessFault_eq_none ha)))

theorem exec_store_of_accessFault_some {v : Word} {c : BitVec 3}
    (hi : handlerOf i (s.setPc (s.pc + 1#16)) = memWrite (s.setPc (s.pc + 1#16)) a v)
    (ha : accessFault s 3 a = some c) : exec i s = .next (faultedWith s c a (encode i)) := by
  obtain ⟨r, hr, rfl, rfl⟩ := checkAddress_of_accessFault_eq_some (kind := .store) ha
  exact exec_of_handlerOf_error (hi.trans (memWrite_error_iff.mpr hr))

end

/-! ### The last access of each load and store -/

section
variable (s : State) (r base : RegId) (off9 : BitVec 9) (off6 : BitVec 6)

theorem handlerOf_ld_eq :
    handlerOf (.ld r off9) (s.setPc (s.pc + 1#16)) = loadInto r (pcRel s off9) (s.setPc (s.pc + 1#16)) := by
  rw [← pcRelative_setPc_eq_pcRel]; rfl

theorem handlerOf_ldr_eq :
    handlerOf (.ldr r base off6) (s.setPc (s.pc + 1#16)) =
      loadInto r (baseRel s base off6) (s.setPc (s.pc + 1#16)) := by
  rw [← baseOffset_setPc_eq_baseRel]; rfl

theorem handlerOf_st_eq :
    handlerOf (.st r off9) (s.setPc (s.pc + 1#16)) =
      memWrite (s.setPc (s.pc + 1#16)) (pcRel s off9) (s.reg r) := by
  rw [← pcRelative_setPc_eq_pcRel]; rfl

theorem handlerOf_str_eq :
    handlerOf (.str r base off6) (s.setPc (s.pc + 1#16)) =
      memWrite (s.setPc (s.pc + 1#16)) (baseRel s base off6) (s.reg r) := by
  rw [← baseOffset_setPc_eq_baseRel]; rfl

end

/-! ### The pointer read of LDI and STI (R106, R110) -/

section
variable {s : State} {r : RegId} {off9 : BitVec 9}

theorem indirect_of_accessFault_none (h : accessFault s 2 (pcRel s off9) = none) :
    indirect (s.setPc (s.pc + 1#16)) off9 = .ok (s.mem.read (pcRel s off9).toNat) := by
  rw [indirect, pcRelative_setPc_eq_pcRel]
  exact memRead_of_accessible (accessible_of_accessFault_eq_none h)

theorem indirect_of_accessFault_some {c : BitVec 3} (h : accessFault s 2 (pcRel s off9) = some c) :
    ∃ e : Raise, indirect (s.setPc (s.pc + 1#16)) off9 = .error e ∧ e.cause.code = c ∧
      e.addr = pcRel s off9 := by
  obtain ⟨e, he, hcode, haddr⟩ := checkAddress_of_accessFault_eq_some (kind := .load) h
  exact ⟨e, indirect_error_iff.mpr ((checkAddress_pcRelative_setPc ..).trans he), hcode, haddr⟩

theorem handlerOf_ldi_of_pointer (h : accessFault s 2 (pcRel s off9) = none) :
    handlerOf (.ldi r off9) (s.setPc (s.pc + 1#16)) =
      loadInto r (s.mem.read (pcRel s off9).toNat) (s.setPc (s.pc + 1#16)) := by
  simp only [handlerOf, indirect_of_accessFault_none h]

theorem handlerOf_sti_of_pointer (h : accessFault s 2 (pcRel s off9) = none) :
    handlerOf (.sti r off9) (s.setPc (s.pc + 1#16)) =
      memWrite (s.setPc (s.pc + 1#16)) (s.mem.read (pcRel s off9).toNat) (s.reg r) := by
  simp only [handlerOf, indirect_of_accessFault_none h, State.setPc_reg]

end

/-! ### Loads, LEA and stores -/

/-- Settles O19: one load, at the PC-relative address. -/
theorem ldLoadsOrFaults : Obligations.LdLoadsOrFaults := fun _ _ _ =>
  ⟨exec_load_of_accessFault_none (handlerOf_ld_eq ..),
    fun _ => exec_load_of_accessFault_some (handlerOf_ld_eq ..)⟩

/-- Settles O20: with the pointer read, LDI is one load at the pointer; a failing pointer read is raised as it is. -/
theorem ldiLoadsThroughThePointerOrFaults : Obligations.LdiLoadsThroughThePointerOrFaults := by
  rintro dr off9 s _ rfl
  refine ⟨fun hptr => exec_load_of_accessFault_none (handlerOf_ldi_of_pointer hptr), fun c hc => ?_,
    fun c hptr => exec_load_of_accessFault_some (handlerOf_ldi_of_pointer hptr)⟩
  obtain ⟨e, he, rfl, haddr⟩ := indirect_of_accessFault_some hc
  exact haddr ▸ exec_of_handlerOf_error (handlerOf_ldi_error_iff.mpr (.inl he))

/-- Settles O21: one load, at the address the old base value gives. -/
theorem ldrLoadsOrFaults : Obligations.LdrLoadsOrFaults := fun _ _ _ _ =>
  ⟨exec_load_of_accessFault_none (handlerOf_ldr_eq ..),
    fun _ => exec_load_of_accessFault_some (handlerOf_ldr_eq ..)⟩

/-- Settles O22: LEA writes the address it computes and makes no access. -/
theorem leaAnswersTheAddress : Obligations.LeaAnswersTheAddress := by
  intro dr off9 s
  rw [exec_of_handlerOf_ok rfl, pcRelative_setPc_eq_pcRel]
  rfl

/-- Settles O23: one store, at the PC-relative address. -/
theorem stStoresOrFaults : Obligations.StStoresOrFaults := fun _ _ _ =>
  ⟨exec_store_of_accessFault_none (handlerOf_st_eq ..),
    fun _ => exec_store_of_accessFault_some (handlerOf_st_eq ..)⟩

/-- Settles O24: with the pointer read, STI is one store at the pointer; a failing pointer read is raised as it is. -/
theorem stiStoresThroughThePointerOrFaults : Obligations.StiStoresThroughThePointerOrFaults := by
  rintro sr off9 s _ rfl
  refine ⟨fun hptr => exec_store_of_accessFault_none (handlerOf_sti_of_pointer hptr), fun c hc => ?_,
    fun c hptr => exec_store_of_accessFault_some (handlerOf_sti_of_pointer hptr)⟩
  obtain ⟨e, he, rfl, haddr⟩ := indirect_of_accessFault_some hc
  exact haddr ▸ exec_of_handlerOf_error (handlerOf_sti_error_iff.mpr (.inl he))

/-- Settles O25: one store, at the base + offset address. -/
theorem strStoresOrFaults : Obligations.StrStoresOrFaults := fun _ _ _ _ =>
  ⟨exec_store_of_accessFault_none (handlerOf_str_eq ..),
    fun _ => exec_store_of_accessFault_some (handlerOf_str_eq ..)⟩

/-! ### The memory primitives (R47, R54) -/

/-- Settles O26: each primitive is its check and then the access; the cell written and the others are the laws of
`Memory.write`. -/
theorem memoryPrimitivesCheckThenAccess : Obligations.MemoryPrimitivesCheckThenAccess := by
  intro s a v hmem
  refine ⟨fun kind ha => memRead_of_accessible (accessible_of_accessFault_eq_none ha), fun kind c hc => ?_,
    fun ha => ?_, fun c hc => ?_, by decide⟩
  · obtain ⟨r, hr, hcode⟩ := checkAddress_of_accessFault_eq_some hc
    exact ⟨r, memRead_error_iff.mpr hr, hcode⟩
  · exact ⟨_, memWrite_of_accessible (accessible_of_accessFault_eq_none ha), Memory.read_write_same _ _ _ hmem,
      fun b hb => Memory.read_write_other _ _ _ hb⟩
  · obtain ⟨r, hr, hcode⟩ := checkAddress_of_accessFault_eq_some (kind := .store) hc
    exact ⟨r, memWrite_error_iff.mpr hr, hcode⟩

/-- The cell a committed store wrote holds the word stored. -/
theorem read_of_exec_store {i : Instr} {s t : State} {a v : Word} (hmem : s.mem.wf)
    (hi : exec i s = .next (done { s with mem := s.mem.write a.toNat v } (s.pc + 1#16)))
    (ht : exec i s = .next t) : t.mem.read a.toNat = v := by
  cases hi.symm.trans ht
  exact Memory.read_write_same _ _ _ hmem

/-- Settles O28: a store that passes commits its write, and the cell then reads as the word written. -/
theorem storedWordReadsBack : Obligations.StoredWordReadsBack := by
  intro sr base off9 off6 s t hmem
  refine ⟨fun ha => ?_, fun hptr ha => ?_, fun ha => ?_⟩
  · exact read_of_exec_store hmem ((stStoresOrFaults sr off9 s).1 ha)
  · exact read_of_exec_store hmem ((stiStoresThroughThePointerOrFaults sr off9 s _ rfl).1 hptr ha)
  · exact read_of_exec_store hmem ((strStoresOrFaults sr base off6 s).1 ha)

/-! ### Fetch (R73, R74) -/

theorem step_of_accessible {s : State} (hs : s.faulted = false) (hpc : s.accessible s.pc) :
    step s = exec (decodeWord (s.mem.read s.pc.toNat)) s := by
  rw [step, hs, fetch_of_accessible hpc]; rfl

theorem pcRel_zero (s : State) : pcRel s 0#9 = s.pc + 1#16 := by simp [pcRel]

/-- Settles O29: the store leaves `pc` at the cell it wrote, which is outside CLS_REGION, so the next fetch reads the
stored word. -/
theorem storedWordIsFetchedNext : Obligations.StoredWordIsFetchedNext := by
  intro sr s hmem hs ha
  have hst := exec_store_of_accessFault_none (pcRel_zero s ▸ handlerOf_st_eq s sr 0#9) ha
  refine ⟨_, hst, (step_of_accessible ?_ ?_).trans ?_⟩
  · exact hs
  · exact accessible_of_accessFault_eq_none ha
  · exact congrArg (fun w => exec (decodeWord w) _) (read_of_exec_store hmem hst hst)

/-- Settles O35: FAULTED is tested first. -/
theorem faultedStepChangesNothing : Obligations.FaultedStepChangesNothing :=
  fun _ hs => if_pos hs

/-- Settles O36: the fetch passes, and decoding the one word fetched gives `i`. -/
theorem stepRunsTheDecodedInstruction : Obligations.StepRunsTheDecodedInstruction := by
  intro s i hs ha hdecode _
  obtain rfl : decodeWord (s.mem.read s.pc.toNat) = i := congrArg Prod.fst (Except.ok.inj hdecode)
  exact step_of_accessible hs (accessible_of_accessFault_eq_none ha)

theorem step_of_fetch_error {s : State} {r : Raise} (hs : s.faulted = false)
    (h : checkAddress s .fetch s.pc = .error r) :
    step s = .next { faultedWith s r.cause.code r.addr (Config.freeFaultIr s.freeCount) with
      freeCount := s.freeCount + 1 } :=
  step_next_iff.mpr (.inr (.inr ⟨hs, r, h, rfl⟩))

/-- Settles O37: the two ways the check of a fetch fails, at `pc` itself. -/
theorem fetchFaultKeepsThePc : Obligations.FetchFaultKeepsThePc := by
  intro s hs
  refine ⟨fun hrange => ?_, fun hrange hregion => ?_⟩
  · exact ⟨_, _, step_of_fetch_error hs (checkAddress_error_iff.mpr (.inl ⟨hrange, rfl⟩))⟩
  · exact ⟨_, _, step_of_fetch_error hs (checkAddress_error_iff.mpr (.inr ⟨hrange, hregion, rfl⟩))⟩

/-! ### The call instructions and the stack controller (R90, R91, R100, R101) -/

theorem linkCall_of_full {s : State} (hfull : s.cls.length = s.params.clsDepth) :
    linkCall (s.setPc (s.pc + 1#16)) = .error { cause := .clsOverflow, addr := s.pc + 1#16 } :=
  linkCall_error_iff.mpr ⟨hfull, rfl⟩

/-- Settles O14: below capacity the call links, at capacity its push raises CLS_OVERFLOW. -/
theorem jsrLinksPushesAndBranches : Obligations.JsrLinksPushesAndBranches := fun off11 _ =>
  ⟨exec_jsr_of_not_full off11,
    fun hfull => exec_of_handlerOf_error (handlerOf_jsr_error_iff.mpr (linkCall_of_full hfull))⟩

/-- BaseR as JSRR reads it, after the link is written (R101). -/
theorem reg_setReg_linkReg (s : State) (base : RegId) (v : Word) :
    (s.setReg linkReg v).reg base = if base = 7#3 then v else s.reg base := by
  split
  · next h => subst h; exact State.reg_setReg_same ..
  · next h => exact State.reg_setReg_other s v h

/-- Settles O15: as for JSR, with the target read from the registers the link left. -/
theorem jsrrReadsBaseAfterTheLink : Obligations.JsrrReadsBaseAfterTheLink := by
  intro ignHi base ignLo s
  refine ⟨fun hroom => ?_,
    fun hfull => exec_of_handlerOf_error (handlerOf_jsrr_error_iff.mpr (linkCall_of_full hfull))⟩
  have hlink := linkCall_ok_iff (s := s.setPc (s.pc + 1#16)) |>.mpr ⟨hroom, rfl⟩
  rw [exec_of_handlerOf_ok (handlerOf_jsrr_ok_iff.mpr ⟨_, hlink, rfl⟩), State.setCls_reg, reg_setReg_linkReg]
  rfl

/-- Settles O27: the controller's own laws, the pop being of the entry just pushed. -/
theorem stackControllerPushAndPop : Obligations.StackControllerPushAndPop := fun _ _ =>
  ⟨fun hfull => ⟨_, clsPush_error_iff.mpr ⟨hfull, rfl⟩, rfl, rfl⟩,
    fun hroom => ⟨clsPush_ok_iff.mpr ⟨hroom, rfl⟩, clsPop_top rfl⟩, clsPop_empty⟩

end Sys2Proof.Proofs.Accesses
end

section
/-! What a step can change (spec/40_dispatch.md R73, R114), said once for all instructions: the six ways an instruction
commits, or the fault entry. The frames (spec/10_state.md R24, R33, R37; spec/20_memory.md R43; spec/42_call_linkage_stack.md
R92) and the machine invariant are read off it. -/

namespace Sys2Proof.Proofs.Effects

open Machine Claims Flags Dispatch Operate Exceptions Accesses

/-! ### The six ways an instruction commits -/

/-- `i`, run in `s`, commits and leaves `t`: what it wrote, and in which of its operands' terms. -/
inductive Commits (i : Instr) (s : State) : State → Prop
  /-- A result in DR with its flags (R28). -/
  | result {dr : RegId} {v : Word} (hdr : ccDest i = some dr) :
      Commits i s (done (withResult s dr v) (s.pc + 1#16))
  /-- LEA: an address in DR (R108). -/
  | address {dr : RegId} {off9 : BitVec 9} {v : Word} (hi : i = .lea dr off9) :
      Commits i s (done (withReg s dr v) (s.pc + 1#16))
  /-- A move of `pc` and nothing else; JMP R7 only where there is nothing to pop (R99). -/
  | move {target : Word} (hpush : pushes i = false) (hpop : popsLink i = true → s.cls = []) :
      Commits i s (done s target)
  /-- JMP R7 through the top entry (R99). -/
  | pop {rest : List Word} {v : Word} (hi : popsLink i = true) (htop : s.cls = rest ++ [v]) :
      Commits i s (done { withReg s 7#3 v with cls := rest } v)
  /-- A call below capacity (R100, R101). -/
  | push {target : Word} (hi : pushes i = true) (hroom : s.cls.length ≠ s.params.clsDepth) :
      Commits i s (done { withReg s 7#3 (s.pc + 1#16) with cls := s.cls ++ [s.pc + 1#16] } target)
  /-- A store of one word (R109–R111). -/
  | store {a v : Word} (hi : storesTo s i = some a) (ha : s.accessible a) :
      Commits i s (done { s with mem := s.mem.write a.toNat v } (s.pc + 1#16))

section
variable {i : Instr} {s u : State}

theorem commits_of_linkCall_ok {w : State} {target : Word} (hi : pushes i = true)
    (hw : linkCall (s.setPc (s.pc + 1#16)) = .ok w) : Commits i s (w.setPc target).commit := by
  obtain ⟨hroom, rfl⟩ := linkCall_ok_iff.mp hw
  exact .push hi hroom

theorem commits_of_memWrite_ok {a v : Word} (hi : storesTo s i = some a)
    (hu : memWrite (s.setPc (s.pc + 1#16)) a v = .ok u) : Commits i s u.commit := by
  obtain ⟨ha, rfl⟩ := memWrite_ok_iff.mp hu
  exact .store hi ha

theorem commits_of_popIntoLink (ignHi : BitVec 3) (base : RegId) (ignLo : BitVec 6) (s : State) :
    Commits (.jmp ignHi base ignLo) s
      ((popIntoLink base (s.setPc (s.pc + 1#16))).setPc
        ((popIntoLink base (s.setPc (s.pc + 1#16))).reg base)).commit := by
  rcases popIntoLink_cases base (s.setPc (s.pc + 1#16)) with
    ⟨hne, hpop⟩ | ⟨-, hempty, hpop⟩ | ⟨rfl, rest, v, htop, hpop⟩ <;> rw [hpop]
  · exact .move rfl fun hbase => absurd (eq_of_beq hbase) hne
  · exact .move rfl fun _ => hempty
  · rw [State.reg_setReg_same]; exact .pop rfl htop

/-- What a handler leaves, committed, is one of the six. -/
theorem commits_of_handlerOf_ok (h : handlerOf i (s.setPc (s.pc + 1#16)) = .ok u) :
    Commits i s u.commit := by
  cases hd : ccDest i with
  | some dr =>
    obtain ⟨v, rfl⟩ := handlerOf_ok_of_ccDest_some hd h
    rw [commit_writeResult_setPc_eq_done]
    exact .result hd
  | none =>
    cases i with
    | addReg | addImm | andReg | andImm | notReg | ld | ldi | ldr => cases hd
    | lea => cases h; exact .address rfl
    | br => cases h; split <;> exact .move rfl nofun
    | trap | rti | res => cases h; exact .move rfl nofun
    | jmp => cases h; exact commits_of_popIntoLink ..
    | jsr =>
      obtain ⟨w, hw, rfl⟩ := handlerOf_jsr_ok_iff.mp h
      exact commits_of_linkCall_ok rfl hw
    | jsrr =>
      obtain ⟨w, hw, rfl⟩ := handlerOf_jsrr_ok_iff.mp h
      exact commits_of_linkCall_ok rfl hw
    | st | str => exact commits_of_memWrite_ok rfl h
    | sti =>
      obtain ⟨a, ha, hw⟩ := handlerOf_sti_ok_iff.mp h
      exact commits_of_memWrite_ok (by rw [storesTo, ha]; rfl) hw

end

/-- Every instruction answers a next state: it commits, or its fault is entered. -/
theorem exec_answers (i : Instr) (s : State) :
    (∃ t, exec i s = .next t ∧ Commits i s t) ∨
    ∃ r, handlerOf i (s.setPc (s.pc + 1#16)) = .error r ∧
      exec i s = .next (faultedWith s r.cause.code r.addr (encode i)) := by
  cases h : handlerOf i (s.setPc (s.pc + 1#16)) with
  | ok u => exact .inl ⟨_, exec_of_handlerOf_ok h, commits_of_handlerOf_ok h⟩
  | error r => exact .inr ⟨r, rfl, exec_of_handlerOf_error h⟩

theorem exec_next_cases {i : Instr} {s t : State} (h : exec i s = .next t) :
    Commits i s t ∨
    ∃ r, handlerOf i (s.setPc (s.pc + 1#16)) = .error r ∧
      t = faultedWith s r.cause.code r.addr (encode i) := by
  rcases exec_answers i s with ⟨u, hu, hcommits⟩ | ⟨r, hr, hfault⟩
  · cases hu.symm.trans h; exact .inl hcommits
  · cases hfault.symm.trans h; exact .inr ⟨r, hr, rfl⟩

/-! ### How the claims' tables agree with each other -/

section
variable {i : Instr} {s : State}

theorem tables_of_ccDest {dr : RegId} (h : ccDest i = some dr) :
    pushes i = false ∧ popsLink i = false ∧ mayWrite s i = [dr] := by
  cases i with
  | addReg | addImm | andReg | andImm | notReg | ld | ldi | ldr => cases h; exact ⟨rfl, rfl, rfl⟩
  | br | jmp | jsr | jsrr | lea | st | sti | str | trap | rti | res => cases h

theorem tables_of_storesTo {a : Word} (h : storesTo s i = some a) : pushes i = false ∧ popsLink i = false := by
  cases i with
  | st | sti | str => exact ⟨rfl, rfl⟩
  | addReg | addImm | andReg | andImm | notReg | ld | ldi | ldr | br | jmp | jsr | jsrr | lea | trap | rti
  | res => cases h

theorem pushes_eq_false_of_popsLink (h : popsLink i = true) : pushes i = false := by
  cases i with
  | jmp => rfl
  | addReg | addImm | andReg | andImm | notReg | ld | ldi | ldr | br | jsr | jsrr | lea | st | sti | str | trap
  | rti | res => cases h

theorem mayWrite_of_popsLink (h : popsLink i = true) (hcls : s.cls ≠ []) : mayWrite s i = [7#3] := by
  cases i with
  | jmp _ base => exact if_pos ⟨eq_of_beq h, hcls⟩
  | addReg | addImm | andReg | andImm | notReg | ld | ldi | ldr | br | jsr | jsrr | lea | st | sti | str | trap
  | rti | res => cases h

theorem mayWrite_of_pushes (h : pushes i = true) : mayWrite s i = [7#3] := by
  cases i with
  | jsr | jsrr => rfl
  | addReg | addImm | andReg | andImm | notReg | ld | ldi | ldr | br | jmp | lea | st | sti | str | trap | rti
  | res => cases h

/-- An instruction that faults has pushed nothing, being at capacity if it pushes at all, and does not pop. -/
theorem tables_of_handlerOf_error {r : Raise} (h : handlerOf i (s.setPc (s.pc + 1#16)) = .error r) :
    (pushes i = true → s.cls.length = s.params.clsDepth) ∧ popsLink i = false := by
  cases i with
  | jmp => cases h
  | jsr => exact ⟨fun _ => (linkCall_error_iff.mp (handlerOf_jsr_error_iff.mp h)).1, rfl⟩
  | jsrr => exact ⟨fun _ => (linkCall_error_iff.mp (handlerOf_jsrr_error_iff.mp h)).1, rfl⟩
  | addReg | addImm | andReg | andImm | notReg | ld | ldi | ldr | br | lea | st | sti | str | trap | rti
  | res => exact ⟨nofun, rfl⟩

end

/-! ### Frames -/

theorem reg_withReg_of_not_mem {s : State} {r q : RegId} (v : Word) (h : q ∉ [r]) :
    (withReg s r v).reg q = s.reg q :=
  State.reg_setReg_other s v (List.ne_of_not_mem_cons h)

/-- Settles O30: a commit writes at most one register, the one of its row; a fault writes none. -/
theorem registerFrame : Obligations.RegisterFrame := by
  intro i s t h q hq
  rcases exec_next_cases h with hcommits | ⟨r, -, rfl⟩
  case inr => rfl
  cases hcommits with
  | result hdr =>
    obtain ⟨-, -, hrow⟩ := tables_of_ccDest (s := s) hdr
    exact reg_withReg_of_not_mem _ (hrow ▸ hq)
  | address hi => subst hi; exact reg_withReg_of_not_mem _ hq
  | pop hi htop =>
    have hcls : s.cls ≠ [] := by simp [htop]
    exact reg_withReg_of_not_mem _ (mayWrite_of_popsLink hi hcls ▸ hq)
  | push hi => exact reg_withReg_of_not_mem _ (mayWrite_of_pushes hi ▸ hq)
  | move | store => rfl

/-- Settles O32: only a store writes memory, and only the cell of its address. -/
theorem memoryFrame : Obligations.MemoryFrame := by
  intro i s t h b hb
  rcases exec_next_cases h with hcommits | ⟨r, -, rfl⟩
  case inr => rfl
  cases hcommits with
  | store hi => exact Memory.read_write_other _ _ _ (hb _ hi)
  | result | address | move | pop | push => rfl

/-- Settles O33: a commit that pushes or pops is by the instruction that does, a fault leaves the stack. -/
theorem stackFrame : Obligations.StackFrame := by
  intro i s t h
  rcases exec_next_cases h with hcommits | ⟨r, hr, rfl⟩
  case inr =>
    obtain ⟨hfull, hpop⟩ := tables_of_handlerOf_error hr
    rw [if_neg fun hpush => hpush.2 (hfull hpush.1), hpop]; rfl
  cases hcommits with
  | result hdr =>
    obtain ⟨hpush, hpop, -⟩ := tables_of_ccDest (s := s) hdr
    rw [hpush, hpop]; rfl
  | address hi => subst hi; rfl
  | move hpush hpop =>
    rw [hpush, if_neg fun hboth => absurd hboth.1 Bool.false_ne_true]
    split
    · next hi => rw [hpop hi]; exact hpop hi
    · rfl
  | pop hi htop => rw [pushes_eq_false_of_popsLink hi, hi, htop]; simp [done]
  | push hi hroom => rw [if_pos ⟨hi, hroom⟩]; rfl
  | store hi =>
    obtain ⟨hpush, hpop⟩ := tables_of_storesTo hi
    rw [hpush, hpop]; rfl

/-- What no commit changes: the parameters and the fault state; and CYCLES counts one. -/
theorem Commits.frame {i : Instr} {s t : State} (h : Commits i s t) :
    t.params = s.params ∧ t.cycles = s.cycles + 1 ∧ t.faulted = s.faulted ∧ t.faultCause = s.faultCause ∧
      t.faultAddr = s.faultAddr ∧ t.faultIr = s.faultIr := by
  cases h <;> exact ⟨rfl, rfl, rfl, rfl, rfl, rfl⟩

/-- Settles O34: the two answers of an instruction, each with its own frame. -/
theorem commitOrFaultFrame : Obligations.CommitOrFaultFrame := by
  intro i s
  rcases exec_answers i s with ⟨t, ht, hcommits⟩ | ⟨r, -, hfault⟩
  · obtain ⟨hparams, hrest⟩ := hcommits.frame
    exact ⟨t, ht, hparams, .inl hrest⟩
  · exact ⟨_, hfault, rfl, .inr ⟨_, _, rfl⟩⟩

/-- Settles O38: FAULTED is tested first; then the fetch check decides between the instruction's own two answers and the
fetch fault. -/
theorem everyStepCommitsOrFaults : Obligations.EveryStepCommitsOrFaults := by
  intro s
  cases hs : s.faulted with
  | true => exact ⟨s, faultedStepChangesNothing s hs, fun _ => rfl, nofun⟩
  | false =>
    cases hfetch : checkAddress s .fetch s.pc with
    | error r =>
      exact ⟨_, step_of_fetch_error hs hfetch, nofun, fun _ => .inr ⟨rfl, _, _, _, _, rfl⟩⟩
    | ok u =>
      have hstep := step_of_accessible hs (checkAddress_ok_iff.mp hfetch)
      rcases exec_answers (decodeWord (s.mem.read s.pc.toNat)) s with ⟨t, ht, hcommits⟩ | ⟨r, -, hfault⟩
      · obtain ⟨-, hcycles, hfaulted, -⟩ := hcommits.frame
        exact ⟨t, hstep.trans ht, nofun, fun _ => .inl ⟨hfaulted.trans hs, hcycles, ht⟩⟩
      · exact ⟨_, hstep.trans hfault, nofun, fun _ => .inr ⟨rfl, _, _, _, s.freeCount, rfl⟩⟩

/-! ### The machine invariant -/

theorem withResult_oneHot (s : State) (dr : RegId) (v : Word) : (withResult s dr v).oneHot := by
  have h := setCC_oneHot v (s.setReg dr v)
  rw [setCC_eq] at h
  exact h

theorem Commits.oneHot {i : Instr} {s t : State} (h : Commits i s t) (hs : s.oneHot) : t.oneHot := by
  cases h with
  | @result dr v => exact withResult_oneHot s dr v
  | address | move | pop | push | store => exact hs

/-- Settles O43: a result's flags are one sign class, and everything else keeps the flags. -/
theorem execKeepsFlagsOneHot : Obligations.ExecKeepsFlagsOneHot := by
  intro i s t hs h
  rcases exec_next_cases h with hcommits | ⟨r, -, rfl⟩
  · exact hcommits.oneHot hs
  · exact hs

theorem Commits.inv {i : Instr} {s t : State} (h : Commits i s t) (hs : s.Inv) : t.Inv := by
  obtain ⟨hparams, hmem, hflags, hstack, hcause⟩ := hs
  have hflags' := h.oneHot hflags
  cases h with
  | result | address | move => exact ⟨hparams, hmem, hflags', hstack, hcause⟩
  | pop _ htop =>
    rw [State.stackBounded, htop, List.length_append] at hstack
    exact ⟨hparams, hmem, hflags', Nat.le_of_add_right_le hstack, hcause⟩
  | push _ hroom =>
    refine ⟨hparams, hmem, hflags', ?_, hcause⟩
    rw [State.stackBounded, done, List.length_append]
    exact Nat.lt_of_le_of_ne hstack hroom
  | store _ ha => exact ⟨hparams, Memory.write_wf _ _ _ ha.1 hmem, hflags', hstack, hcause⟩

theorem faultedWith_inv {s : State} (hs : s.Inv) (cause : Cause) (addr ir : Word) :
    (faultedWith s cause.code addr ir).Inv := by
  obtain ⟨hparams, hmem, hflags, hstack, -⟩ := hs
  exact ⟨hparams, hmem, hflags, hstack, fun _ => Cause.code_bounds cause⟩

/-- Settles O42: a step leaves the state, commits one of the six effects, or enters a fault, and each keeps the
invariant. -/
theorem stepKeepsTheInvariant : Obligations.StepKeepsTheInvariant := by
  intro s t hs hstep
  rcases step_next_iff.mp hstep with ⟨-, rfl⟩ | ⟨-, -, hexec⟩ | ⟨-, r, -, rfl⟩
  · exact hs
  · rcases exec_next_cases hexec with hcommits | ⟨r, -, rfl⟩
    · exact hcommits.inv hs
    · exact faultedWith_inv hs r.cause r.addr _
  · exact faultedWith_inv hs r.cause r.addr (Config.freeFaultIr s.freeCount)

end Sys2Proof.Proofs.Effects
end

section
/-! What an instruction cannot see (spec/30_encoding.md D8; spec/10_state.md R29, R33, R37; spec/42_call_linkage_stack.md
R89): a relation between states that every operation carries through is carried through by every instruction. -/

namespace Sys2Proof.Proofs.Unseen

open Machine Claims Flags Dispatch Control Exceptions Accesses

/-! ### Ignored bits (D8) -/

/-- Two instructions with one handler answer the same but for the word a fault records. -/
theorem runHandler_agree_off_faultIr (i j : Instr) (h : State → Except Raise State) (s : State) :
    ∃ t t', runHandler i h s = .next t ∧ runHandler j h s = .next t' ∧
      { t with faultIr := s.faultIr } = { t' with faultIr := s.faultIr } := by
  cases hh : h (s.setPc (s.pc + 1#16)) with
  | ok u => exact ⟨_, _, runHandler_of_ok hh, runHandler_of_ok hh, rfl⟩
  | error r => exact ⟨_, _, runHandler_of_error hh, runHandler_of_error hh, rfl⟩

/-- Two instructions whose one handler does not raise answer the same. -/
theorem exec_eq_of_handlerOf_ok {i j : Instr} {s u : State}
    (hi : handlerOf i (s.setPc (s.pc + 1#16)) = .ok u) (hj : handlerOf j (s.setPc (s.pc + 1#16)) = .ok u) :
    exec i s = exec j s := by
  rw [exec_of_handlerOf_ok hi, exec_of_handlerOf_ok hj]

/-- Settles O5: no handler takes the ignored bits, and of these instructions only JSRR can raise. -/
theorem ignoredBitsHaveNoEffect : Obligations.IgnoredBitsHaveNoEffect := by
  refine ⟨?_, ?_, ?_, ?_, fun h h' a g g' s => ?_, ?_, ?_, ?_⟩
  case refine_5 =>
    simp only [exec_eq_runHandler]
    exact runHandler_agree_off_faultIr _ _ (handlerOf (.jsrr h a g)) s
  all_goals intros; exact exec_eq_of_handlerOf_ok rfl rfl

/-! ### Relations every operation carries through -/

/-- `R` relates states that no operation but a branch and the stack controller can tell apart, and every write keeps
them related. -/
structure Carried (R : State → State → Prop) : Prop where
  pc {s t : State} (h : R s t) : s.pc = t.pc
  reg {s t : State} (h : R s t) (r : RegId) : s.reg r = t.reg r
  mem {s t : State} (h : R s t) : s.mem = t.mem
  params {s t : State} (h : R s t) : s.params = t.params
  setPc {s t : State} (h : R s t) (v : Word) : R (s.setPc v) (t.setPc v)
  setReg {s t : State} (h : R s t) (r : RegId) (v : Word) : R (s.setReg r v) (t.setReg r v)
  setFlags {s t : State} (h : R s t) (n z p : Bool) : R (s.setFlags n z p) (t.setFlags n z p)
  setMem {s t : State} (h : R s t) (m : Memory) : R (s.setMem m) (t.setMem m)
  commit {s t : State} (h : R s t) : R s.commit t.commit
  fault {s t : State} (h : R s t) (c : BitVec 3) (a ir : Word) : R (faultedWith s c a ir) (faultedWith t c a ir)

/-- Related states branch alike. -/
def BranchAlike (R : State → State → Prop) : Prop :=
  ∀ {s t : State}, R s t → ∀ n z p, branchTaken n z p s = branchTaken n z p t

/-- Related states hold the same stack, and a write of the stack keeps them related. -/
structure SameStack (R : State → State → Prop) : Prop where
  cls {s t : State} (h : R s t) : s.cls = t.cls
  setCls {s t : State} (h : R s t) (l : List Word) : R (s.setCls l) (t.setCls l)

/-- Two handlers' answers: related states, or the same raise. -/
inductive AnswersAgree (R : State → State → Prop) : Except Raise State → Except Raise State → Prop
  | ok {u v : State} (h : R u v) : AnswersAgree R (.ok u) (.ok v)
  | error (r : Raise) : AnswersAgree R (.error r) (.error r)

section
variable {R : State → State → Prop} {s t : State}

namespace Carried

variable (hR : Carried R) (h : R s t)
include hR h

theorem writeResult_related (dr : RegId) (v : Word) : R (writeResult dr v s) (writeResult dr v t) := by
  rw [writeResult_eq, writeResult_eq]
  exact hR.setFlags (hR.setReg h dr v) ..

theorem checkAddress_eq (kind : AccessKind) (a : Word) : checkAddress s kind a = checkAddress t kind a := by
  rw [checkAddress, checkAddress, hR.params h]

theorem memRead_eq (kind : AccessKind) (a : Word) : memRead s kind a = memRead t kind a := by
  rw [memRead, memRead, hR.checkAddress_eq h, hR.mem h]

theorem pcRelative_eq (off9 : BitVec 9) : pcRelative s off9 = pcRelative t off9 := by
  rw [pcRelative, pcRelative, hR.pc h]

theorem baseOffset_eq (base : RegId) (off6 : BitVec 6) : baseOffset s base off6 = baseOffset t base off6 := by
  rw [baseOffset, baseOffset, hR.reg h]

theorem indirect_eq (off9 : BitVec 9) : indirect s off9 = indirect t off9 := by
  rw [indirect, indirect, hR.pcRelative_eq h, hR.memRead_eq h]

theorem loadInto_agree (dr : RegId) (a : Word) : AnswersAgree R (loadInto dr a s) (loadInto dr a t) := by
  unfold loadInto
  rw [hR.memRead_eq h]
  cases memRead t .load a with
  | ok v => exact .ok (hR.writeResult_related h dr v)
  | error r => exact .error r

theorem memWrite_agree (a v : Word) : AnswersAgree R (memWrite s a v) (memWrite t a v) := by
  unfold memWrite
  rw [hR.checkAddress_eq h, hR.mem h]
  cases checkAddress t .store a with
  | ok u => exact .ok (hR.setMem h _)
  | error r => exact .error r

theorem linkCall_agree (hS : SameStack R) : AnswersAgree R (linkCall s) (linkCall t) := by
  unfold linkCall clsPush State.clsDepth
  have hlink := hR.setReg h linkReg s.pc
  rw [← hR.pc h, hS.cls hlink, hR.params hlink]
  split
  · exact .error _
  · exact .ok (hS.setCls hlink _)

theorem popIntoLink_related (hS : SameStack R) (base : RegId) : R (popIntoLink base s) (popIntoLink base t) := by
  unfold popIntoLink clsPop
  rw [hS.cls h]
  split
  · cases t.cls.getLast? with
    | none => exact h
    | some v => exact hR.setReg (hS.setCls h _) linkReg v
  · exact h

/-- A handler's answers from related states agree, for an instruction that tests the flags or uses the stack only where
those are related too. -/
theorem handlerOf_agree (i : Instr) (hbr : isBranch i = true → BranchAlike R)
    (hcls : pushes i = true ∨ popsLink i = true → SameStack R) :
    AnswersAgree R (handlerOf i s) (handlerOf i t) := by
  cases i with
  | addReg | addImm | andReg | andImm | notReg =>
    simp only [handlerOf, hR.reg h]; exact .ok (hR.writeResult_related h ..)
  | lea => simp only [handlerOf, hR.pcRelative_eq h]; exact .ok (hR.setReg h ..)
  | trap => exact .ok (hR.setPc h _)
  | rti | res => exact .ok h
  | br n z p =>
    simp only [handlerOf, hbr rfl h, hR.pcRelative_eq h]
    cases branchTaken n z p t with
    | true => exact .ok (hR.setPc h _)
    | false => exact .ok h
  | ld => simp only [handlerOf, hR.pcRelative_eq h]; exact hR.loadInto_agree h ..
  | ldr => simp only [handlerOf, hR.baseOffset_eq h]; exact hR.loadInto_agree h ..
  | ldi _ off9 =>
    simp only [handlerOf, hR.indirect_eq h]
    cases indirect t off9 with
    | ok a => exact hR.loadInto_agree h ..
    | error r => exact .error r
  | st => simp only [handlerOf, hR.pcRelative_eq h, hR.reg h]; exact hR.memWrite_agree h ..
  | str => simp only [handlerOf, hR.baseOffset_eq h, hR.reg h]; exact hR.memWrite_agree h ..
  | sti _ off9 =>
    simp only [handlerOf, hR.indirect_eq h, hR.reg h]
    cases indirect t off9 with
    | ok a => exact hR.memWrite_agree h ..
    | error r => exact .error r
  | jmp _ base =>
    have hpop : R (popIntoLink base s) (popIntoLink base t) := by
      by_cases hbase : base = 7#3
      · exact hR.popIntoLink_related h (hcls (.inr (beq_iff_eq.mpr hbase))) base
      · rwa [popIntoLink_of_ne hbase, popIntoLink_of_ne hbase]
    simp only [handlerOf, hR.reg hpop]
    exact .ok (hR.setPc hpop _)
  | jsr =>
    have hlink := hR.linkCall_agree h (hcls (.inl rfl))
    simp only [handlerOf]
    generalize linkCall s = x, linkCall t = y at hlink ⊢
    cases hlink with
    | ok huv => simp only [pcRelative11, hR.pc huv]; exact .ok (hR.setPc huv _)
    | error r => exact .error r
  | jsrr =>
    have hlink := hR.linkCall_agree h (hcls (.inl rfl))
    simp only [handlerOf]
    generalize linkCall s = x, linkCall t = y at hlink ⊢
    cases hlink with
    | ok huv => simp only [hR.reg huv]; exact .ok (hR.setPc huv _)
    | error r => exact .error r

/-- Every such instruction, run from related states, answers related states. -/
theorem exec_related (i : Instr) (hbr : isBranch i = true → BranchAlike R)
    (hcls : pushes i = true ∨ popsLink i = true → SameStack R) :
    ∃ u v, exec i s = .next u ∧ exec i t = .next v ∧ R u v := by
  have hanswers := hR.handlerOf_agree (hR.setPc h (s.pc + 1#16)) i hbr hcls
  rw [congrArg t.setPc (congrArg (· + 1#16) (hR.pc h))] at hanswers
  generalize hx : handlerOf i (s.setPc (s.pc + 1#16)) = x,
    hy : handlerOf i (t.setPc (t.pc + 1#16)) = y at hanswers
  cases hanswers with
  | ok huv => exact ⟨_, _, exec_of_handlerOf_ok hx, exec_of_handlerOf_ok hy, hR.commit huv⟩
  | error r => exact ⟨_, _, exec_of_handlerOf_error hx, exec_of_handlerOf_error hy, hR.fault h ..⟩

end Carried

end

/-! ### The three relations -/

/-- `t` is `s` with other flags. -/
def OtherFlags (s t : State) : Prop := ∃ n z p, t = s.setFlags n z p

theorem otherFlags_carried : Carried OtherFlags where
  pc := by rintro s _ ⟨n, z, p, rfl⟩; rfl
  reg := by rintro s _ ⟨n, z, p, rfl⟩ r; rfl
  mem := by rintro s _ ⟨n, z, p, rfl⟩; rfl
  params := by rintro s _ ⟨n, z, p, rfl⟩; rfl
  setPc := by rintro s _ ⟨n, z, p, rfl⟩ v; exact ⟨n, z, p, rfl⟩
  setReg := by rintro s _ ⟨n, z, p, rfl⟩ r v; exact ⟨n, z, p, rfl⟩
  setFlags := by rintro s _ ⟨n, z, p, rfl⟩ n' z' p'; exact ⟨n', z', p', rfl⟩
  setMem := by rintro s _ ⟨n, z, p, rfl⟩ m; exact ⟨n, z, p, rfl⟩
  commit := by rintro s _ ⟨n, z, p, rfl⟩; exact ⟨n, z, p, rfl⟩
  fault := by rintro s _ ⟨n, z, p, rfl⟩ c a ir; exact ⟨n, z, p, rfl⟩

theorem otherFlags_sameStack : SameStack OtherFlags where
  cls := by rintro s _ ⟨n, z, p, rfl⟩; rfl
  setCls := by rintro s _ ⟨n, z, p, rfl⟩ l; exact ⟨n, z, p, rfl⟩

/-- Settles O46: states with other flags are told apart by BR alone. -/
theorem onlyBranchReadsTheFlags : Obligations.OnlyBranchReadsTheFlags := by
  intro i s a b c hi
  obtain ⟨t, _, ht, ht', n, z, p, rfl⟩ := otherFlags_carried.exec_related (s := s) ⟨a, b, c, rfl⟩ i
    (fun hbr => absurd (hi.symm.trans hbr) Bool.false_ne_true) (fun _ => otherFlags_sameStack)
  exact ⟨t, _, ht, ht', rfl⟩

/-- `s` with another CYCLES and another fault state. -/
def withCount (s : State) (k : Nat) (f : Bool) (c : BitVec 3) (a ir : Word) : State :=
  { s with cycles := k, faulted := f, faultCause := c, faultAddr := a, faultIr := ir }

/-- `t` is `s` with another CYCLES and another fault state. -/
def OtherCount (s t : State) : Prop := ∃ k f c a ir, t = withCount s k f c a ir

theorem otherCount_carried : Carried OtherCount where
  pc := by rintro s _ ⟨k, f, c, a, ir, rfl⟩; rfl
  reg := by rintro s _ ⟨k, f, c, a, ir, rfl⟩ r; rfl
  mem := by rintro s _ ⟨k, f, c, a, ir, rfl⟩; rfl
  params := by rintro s _ ⟨k, f, c, a, ir, rfl⟩; rfl
  setPc := by rintro s _ ⟨k, f, c, a, ir, rfl⟩ v; exact ⟨k, f, c, a, ir, rfl⟩
  setReg := by rintro s _ ⟨k, f, c, a, ir, rfl⟩ r v; exact ⟨k, f, c, a, ir, rfl⟩
  setFlags := by rintro s _ ⟨k, f, c, a, ir, rfl⟩ n z p; exact ⟨k, f, c, a, ir, rfl⟩
  setMem := by rintro s _ ⟨k, f, c, a, ir, rfl⟩ m; exact ⟨k, f, c, a, ir, rfl⟩
  commit := by rintro s _ ⟨k, f, c, a, ir, rfl⟩; exact ⟨k + 1, f, c, a, ir, rfl⟩
  fault := by rintro s _ ⟨k, f, c, a, ir, rfl⟩ c' a' ir'; exact ⟨k, true, c', a', ir', rfl⟩

theorem otherCount_branchAlike : BranchAlike OtherCount := by
  rintro s _ ⟨k, f, c, a, ir, rfl⟩ n z p; rfl

theorem otherCount_sameStack : SameStack OtherCount where
  cls := by rintro s _ ⟨k, f, c, a, ir, rfl⟩; rfl
  setCls := by rintro s _ ⟨k, f, c, a, ir, rfl⟩ l; exact ⟨k, f, c, a, ir, rfl⟩

/-- Settles O47: no instruction tells apart states with another CYCLES and fault state. -/
theorem cyclesAndFaultStateAreUnread : Obligations.CyclesAndFaultStateAreUnread := by
  intro i s k f c a ir
  obtain ⟨t, _, ht, ht', k', f', c', a', ir', rfl⟩ :=
    otherCount_carried.exec_related (s := s) ⟨k, f, c, a, ir, rfl⟩ i
      (fun _ => otherCount_branchAlike) (fun _ => otherCount_sameStack)
  exact ⟨t, _, ht, ht', rfl⟩

/-- `t` is `s` with the stack `entries`. -/
def StackIs (entries : List Word) (s t : State) : Prop := t = s.setCls entries

theorem stackIs_carried (entries : List Word) : Carried (StackIs entries) where
  pc := by rintro s _ rfl; rfl
  reg := by rintro s _ rfl r; rfl
  mem := by rintro s _ rfl; rfl
  params := by rintro s _ rfl; rfl
  setPc := by rintro s _ rfl v; rfl
  setReg := by rintro s _ rfl r v; rfl
  setFlags := by rintro s _ rfl n z p; rfl
  setMem := by rintro s _ rfl m; rfl
  commit := by rintro s _ rfl; rfl
  fault := by rintro s _ rfl c a ir; rfl

theorem stackIs_branchAlike (entries : List Word) : BranchAlike (StackIs entries) := by
  rintro s _ rfl n z p; rfl

/-- Settles O48: states with another stack are told apart by the stack controller's users alone. -/
theorem stackIsHiddenFromOtherInstructions : Obligations.StackIsHiddenFromOtherInstructions := by
  intro i s entries hpush hpop
  obtain ⟨t, _, ht, ht', rfl⟩ := (stackIs_carried entries).exec_related (s := s) rfl i
    (fun _ => stackIs_branchAlike entries) (by simp [hpush, hpop])
  exact ⟨t, ht, ht'⟩

end Sys2Proof.Proofs.Unseen
end

section
/-! Proofs about the host's interfaces (spec/60_exceptions.md R122–R124; spec/70_reset_and_hazards.md R131–R135): reset,
loading, the run-loop and inspection, and that the machine invariant holds from a launch to the end of a run. -/

namespace Sys2Proof.Proofs.Interfaces

open Machine Claims Accesses Effects

/-! ### Reset (R131) -/

/-- Settles O40: the fields of `State.resetWith`, of which `State.reset` is a case. -/
theorem resetLeavesTheSpecValues : Obligations.ResetLeavesTheSpecValues :=
  ⟨fun _ _ _ => ⟨rfl, rfl, rfl, rfl, rfl, rfl, rfl, rfl⟩, _, _, _, rfl⟩

theorem resetWith_inv {c : Config} {regs : Vector Word 8} {m : Memory} (hc : c.wf) (hm : m.wf) :
    (State.resetWith c regs m).Inv :=
  ⟨hc, hm, .inr (.inl rfl), Nat.zero_le _, nofun⟩

/-- Settles O41: Z alone is set, the stack is empty and nothing has faulted; the model's own choices are lawful. -/
theorem resetMeetsTheInvariant : Obligations.ResetMeetsTheInvariant :=
  ⟨resetWith_inv (by decide) State.reset_mem_wf, fun _ _ _ => resetWith_inv⟩

/-! ### Loading one image (R132, R133) -/

section
variable {origin : Nat} {words : List Nat} (s : State)

theorem loadImage_of_fits (hfit : origin < 0x8000 ∧ origin + words.length ≤ 0x8000)
    (hwords : ∀ w ∈ words, w ≤ 0xFFFF) :
    loadImage (.tokens (origin :: words)) s =
      .ok ((s.setMem (s.mem.writeWords origin (words.map (BitVec.ofNat 16)))).setPc (entryPc s.pc origin)) := by
  have hfits : fitsInMemory origin words.length = true := fitsInMemory_iff.mpr hfit
  have hlarge : words.any (0xFFFF < ·) = false := by simpa using hwords
  rw [loadImage, hfits, hlarge]; rfl

theorem loadImage_refused_iff :
    (∃ e, loadImage (.tokens (origin :: words)) s = .error e) ↔
      ¬((origin < 0x8000 ∧ origin + words.length ≤ 0x8000) ∧ ∀ w ∈ words, w ≤ 0xFFFF) := by
  refine ⟨fun ⟨e, he⟩ ⟨hfit, hwords⟩ => ?_, fun hnot => ?_⟩
  · rw [loadImage_of_fits s hfit hwords] at he; cases he
  · rw [loadImage]
    split
    · exact ⟨_, rfl⟩
    · next hfits =>
      have hfit := fitsInMemory_iff.mp (Bool.eq_true_of_not_eq_false hfits)
      rw [if_pos (by simpa using fun hwords => hnot ⟨hfit, hwords⟩)]
      exact ⟨_, rfl⟩

end

/-- Settles O50: the image's words stand where `Memory.writeWords` puts them, and the rest is kept. -/
theorem loadPlacesTheImage : Obligations.LoadPlacesTheImage := by
  intro origin words s hmem horigin hlen hwords
  refine ⟨_, loadImage_of_fits s ⟨horigin, hlen⟩ hwords, fun k w hk => ?_, fun b hb => ?_, rfl⟩
  · have hread : (s.mem.writeWords origin (words.map (BitVec.ofNat 16))).read (origin + k) = BitVec.ofNat 16 w :=
      Memory.read_writeWords_inside _ _ _ _ _ hmem (by rwa [List.length_map]) (by simp [hk])
    have hw : w < 2 ^ 16 := Nat.lt_succ_of_le (hwords w (List.mem_of_getElem? hk))
    exact (congrArg BitVec.toNat hread).trans (Nat.mod_eq_of_lt hw)
  · exact Memory.read_writeWords_outside _ _ _ (by simpa using hb)

/-- Settles O51: the first two files are refused as such; an image is refused just when it does not load. -/
theorem loadRefusesExactlyTheseImages : Obligations.LoadRefusesExactlyTheseImages := by
  refine ⟨fun _ => rfl, fun _ => rfl, fun origin words s => (loadImage_refused_iff s).trans ?_⟩
  simp only [not_and_or, not_forall, not_lt, not_le, exists_prop, or_assoc]

/-! ### Loading the images of a launch (R134) -/

theorem loadImages_cons_ok_iff {f : ImageFile} {fs : List ImageFile} {s t : State} :
    loadImages (f :: fs) s = .ok t ↔ ∃ u, loadImage f s = .ok u ∧ loadImages fs u = .ok t := by
  cases hf : loadImage f s <;> simp [loadImages, hf]

/-- Loading changes memory and `pc` alone, and `pc` by the origins. -/
theorem loadImages_ok {images : List ImageFile} {s t : State} (h : loadImages images s = .ok t) :
    t = { s with mem := t.mem, pc := entryOf s.pc (images.filterMap originOf) } := by
  induction images generalizing s with
  | nil => cases h; rfl
  | cons f fs ih =>
    obtain ⟨u, hu, hfs⟩ := loadImages_cons_ok_iff.mp h
    obtain ⟨origin, words, rfl, -, rfl⟩ := loadImage_ok hu
    exact ih hfs

/-- Settles O52: from the reset state, only memory and `pc` have changed. -/
theorem launchEntryState : Obligations.LaunchEntryState := by
  intro c regs m images s h
  rw [loadImages_ok h]
  exact ⟨rfl, rfl, rfl, rfl, rfl, rfl, rfl⟩

theorem loadImage_inv {f : ImageFile} {s t : State} (hs : s.Inv) (h : loadImage f s = .ok t) : t.Inv := by
  obtain ⟨origin, words, -, hlen, rfl⟩ := loadImage_ok h
  obtain ⟨hparams, hmem, hrest⟩ := hs
  exact ⟨hparams, Memory.writeWords_wf _ _ _ (by simpa using hlen) hmem, hrest⟩

theorem loadImages_inv {images : List ImageFile} {s t : State} (hs : s.Inv)
    (h : loadImages images s = .ok t) : t.Inv := by
  induction images generalizing s with
  | nil => cases h; exact hs
  | cons f fs ih =>
    obtain ⟨u, hu, hfs⟩ := loadImages_cons_ok_iff.mp h
    exact ih (loadImage_inv hs hu) hfs

/-- Settles O44: reset has the invariant and every image loaded keeps it. -/
theorem launchMeetsTheInvariant : Obligations.LaunchMeetsTheInvariant :=
  fun _ _ _ _ _ hc hm h => loadImages_inv (resetWith_inv hc hm) h

/-! ### The run-loop (R122, R123) -/

/-- A run of budget `k` from `s` ends in `t` with end `e`: at the first test of the loop that stops it, or after the steps
taken before. -/
inductive RunsTo : Nat → State → RunEnd → State → Prop
  | faulted {k : Nat} {s : State} (hs : s.faulted = true) : RunsTo k s .faulted s
  | halted {k : Nat} {s : State} (hs : s.faulted = false) (hhalted : s.halted = true) : RunsTo k s .halted s
  | unfinished {s : State} (hs : s.faulted = false) (hrunning : s.halted = false) : RunsTo 0 s .unfinished s
  | step {k : Nat} {s u t : State} {e : RunEnd} (hs : s.faulted = false) (hrunning : s.halted = false)
      (hstep : step s = .next u) (hrest : RunsTo k u e t) : RunsTo (k + 1) s e t

/-- The run-loop always ends, every step having a next state. -/
theorem runLoop_runsTo (k : Nat) (s : State) : ∃ e t, runLoop k s = .next (e, t) ∧ RunsTo k s e t := by
  cases hs : s.faulted with
  | true => exact ⟨_, _, by unfold runLoop; simp [hs], .faulted hs⟩
  | false =>
    cases hhalted : s.halted with
    | true => exact ⟨_, _, by unfold runLoop; simp [hs, hhalted], .halted hs hhalted⟩
    | false =>
      cases k with
      | zero => exact ⟨_, _, by simp [runLoop, hs, hhalted], .unfinished hs hhalted⟩
      | succ k =>
        obtain ⟨u, hu, -⟩ := everyStepCommitsOrFaults s
        obtain ⟨e, t, hrun, hruns⟩ := runLoop_runsTo k u
        exact ⟨e, t, by simpa [runLoop, hs, hhalted, hu] using hrun, .step hs hhalted hu hruns⟩

section
variable {k : Nat} {s t : State} {e : RunEnd}

theorem RunsTo.inv (h : RunsTo k s e t) (hs : s.Inv) : t.Inv := by
  induction h with
  | faulted | halted | unfinished => exact hs
  | step _ _ hstep _ ih => exact ih (stepKeepsTheInvariant _ _ hs hstep)

theorem RunsTo.end_of_faulted (h : RunsTo k s e t) (hs : s.faulted = true) : e = .faulted := by
  cases h with
  | faulted => rfl
  | halted hs' | unfinished hs' | step hs' => cases hs.symm.trans hs'

/-- A run that is not unfinished ends as R123 says of (a) and (b). -/
theorem RunsTo.ended (h : RunsTo k s e t) :
    (e = .halted → t.pc = 0#16 ∧ t.faulted = false) ∧ (e = .faulted → t.faulted = true) := by
  induction h with
  | faulted hs => exact ⟨nofun, fun _ => hs⟩
  | halted hs hhalted => exact ⟨fun _ => ⟨eq_of_beq hhalted, hs⟩, nofun⟩
  | unfinished => exact ⟨nofun, nofun⟩
  | step _ _ _ _ ih => exact ih

/-- What a step adds to CYCLES: one if it commits, and nothing if it faults. -/
theorem cycles_of_step (hs : s.faulted = false) (hstep : step s = .next t) :
    t.cycles = s.cycles + 1 ∨ (t.faulted = true ∧ t.cycles = s.cycles) := by
  obtain ⟨u, hu, -, hlive⟩ := everyStepCommitsOrFaults s
  cases hu.symm.trans hstep
  rcases hlive hs with ⟨-, hcycles, -⟩ | ⟨hfaulted, c, a, ir, k, rfl⟩
  · exact .inl hcycles
  · exact .inr ⟨hfaulted, rfl⟩

theorem RunsTo.cycles_le (h : RunsTo k s e t) : t.cycles ≤ s.cycles + k := by
  induction h with
  | faulted | halted | unfinished => exact Nat.le_add_right ..
  | step hs _ hstep _ ih => rcases cycles_of_step hs hstep with hc | ⟨-, hc⟩ <;> omega

/-- A run that is unfinished has committed at every step. -/
theorem RunsTo.unfinished_cycles (h : RunsTo k s e t) (he : e = .unfinished) :
    t.pc ≠ 0#16 ∧ t.faulted = false ∧ t.cycles = s.cycles + k := by
  induction h with
  | faulted | halted => cases he
  | unfinished hs hrunning => exact ⟨ne_of_beq_false hrunning, hs, rfl⟩
  | step hs _ hstep hrest ih =>
    obtain ⟨hpc, ht, hcycles⟩ := ih he
    rcases cycles_of_step hs hstep with hc | ⟨hu, -⟩
    · exact ⟨hpc, ht, by omega⟩
    · cases he.symm.trans (hrest.end_of_faulted hu)

end

/-- Settles O45: the invariant goes along the steps of the run. -/
theorem runLoopKeepsTheInvariant : Obligations.RunLoopKeepsTheInvariant := by
  intro budget s t e hs h
  obtain ⟨_, _, hrun, hruns⟩ := runLoop_runsTo budget s
  cases hrun.symm.trans h
  exact hruns.inv hs

/-- Settles O53: each test of the loop is one end, and a step that commits counts one cycle and one of the budget. -/
theorem runEndsHaltedFaultedOrOutOfBudget : Obligations.RunEndsHaltedFaultedOrOutOfBudget := by
  intro budget s
  obtain ⟨e, t, hrun, hruns⟩ := runLoop_runsTo budget s
  obtain ⟨hhalted, hfaulted⟩ := hruns.ended
  exact ⟨e, t, hrun, hhalted, hfaulted, hruns.unfinished_cycles, hruns.cycles_le⟩

/-! ### Inspection (R124) -/

/-- Settles O54: the snapshot copies the fields, the range is read cell by cell, and neither mentions the stack. -/
theorem inspectShowsTheStateButNotTheStack : Obligations.InspectShowsTheStateButNotTheStack := by
  refine ⟨fun _ => rfl, fun s lo hi hle hhi => ⟨_, if_pos hhi, by simp, fun k hk => ?_⟩, fun _ _ _ _ => ⟨rfl, rfl⟩⟩
  rw [List.getElem?_map, List.getElem?_range' (by omega), Nat.one_mul]
  rfl

end Sys2Proof.Proofs.Interfaces
end
